-- ==== Sys2Proof/Word.lean ====
section
/-! DEFINITION. The word types of SBFC: bytes, the 16-bit registers, the 56-bit command word with its 48-bit
operand, and the 64-bit response data (10_state.md R24, 30_encoding.md R68, R72). -/

namespace Sys2Proof

/-- One byte of a buffer or of a frame (20_memory.md R40). -/
abbrev Byte := BitVec 8

/-- A register of the block: `CRC`, `TXLEN` or `RXLEN` (10_state.md R24). -/
abbrev Half := BitVec 16

/-- The 32-bit server identifier (30_encoding.md R62). -/
abbrev ServerId := BitVec 32

/-- The operand part `arg[47:0]` of a command word (30_encoding.md R68). -/
abbrev Arg := BitVec 48

/-- A command word `cmd[55:0]` (30_encoding.md R68). -/
abbrev CommandWord := BitVec 56

/-- The data part of a response (30_encoding.md R72). -/
abbrev Data := BitVec 64

end Sys2Proof
end

