-- ==== Sys2Proof/Config.lean ====
section
/-! DEFINITION. The implementation parameters of 00_scope.md R6: the buffer capacity and the four function codes.
They are arguments of the step relation and not state (10_state.md R32); log 1 says why a state carries them. -/

namespace Sys2Proof

/-- The parameters the spec leaves to the build (00_scope.md R6). -/
structure Config where
  /-- `CAP`: the capacity in bytes of each frame buffer, and the longest frame. -/
  cap : Nat
  /-- `FN_GETREQ`. -/
  fnGetReq : Byte
  /-- `FN_SETREQ`. -/
  fnSetReq : Byte
  /-- `FN_GETRESP`. -/
  fnGetResp : Byte
  /-- `FN_SETRESP`. -/
  fnSetResp : Byte
  deriving DecidableEq, Repr

/-- The four function codes, in the order the spec lists them. -/
def Config.functionCodes (c : Config) : List Byte :=
  [c.fnGetReq, c.fnSetReq, c.fnGetResp, c.fnSetResp]

/-- The constraints of 00_scope.md R6: 8 <= CAP <= 65535 and four pairwise distinct function codes. -/
abbrev Config.Valid (c : Config) : Prop :=
  8 ≤ c.cap ∧ c.cap ≤ 65535 ∧ c.functionCodes.Nodup

/-- DESIGN CHOICE (log 1): the configuration of the fixed `State.reset`, the values 95_test_vectors.md uses
(CAP = 64) and the default function codes of 00_scope.md R6. Statements about reset quantify over every valid
configuration instead. -/
def Config.vectors : Config :=
  { cap := 64, fnGetReq := 0x00#8, fnSetReq := 0x01#8, fnGetResp := 0x02#8, fnSetResp := 0x03#8 }

end Sys2Proof
end

