-- ==== Sys2Proof/Syntax.lean ====
section
/-! DEFINITION. The command set of SBFC as one inductive type: a constructor for each of the 15 rows of
spec/opcode_table.json (30_encoding.md R70, R75), with the operands its operand form carries (R69). -/

namespace Sys2Proof

/-- The operand forms of 30_encoding.md R69. -/
inductive Form where
  /-- N: no operand. -/
  | none
  /-- B: one byte, `arg[7:0]`. -/
  | byte
  /-- I: a buffer index, `arg[15:0]`. -/
  | index
  /-- H: a frame header, all 48 bits. -/
  | header
  deriving DecidableEq, Repr

/-- The 15 commands. Every operand is the unsigned value of its bits and every value is legal (30_encoding.md R69),
so an operand's type is exactly its width. -/
inductive Instr where
  /-- `CRC.INIT` (40_crc.md R94). -/
  | crcInit
  /-- `CRC.UPD b` (40_crc.md R95). -/
  | crcUpd (b : Byte)
  /-- `CRC.RD` (40_crc.md R96). -/
  | crcRd
  /-- `TX.CLR` (41_encoder.md R111). -/
  | txClr
  /-- `TX.HDR sid, slot, fn` (41_encoder.md R112). -/
  | txHdr (sid : ServerId) (slot : Byte) (fn : Byte)
  /-- `TX.PUT b` (41_encoder.md R113). -/
  | txPut (b : Byte)
  /-- `TX.SEAL` (41_encoder.md R115). -/
  | txSeal
  /-- `TX.RD i` (41_encoder.md R117). -/
  | txRd (i : Half)
  /-- `TX.LEN` (41_encoder.md R118). -/
  | txLen
  /-- `RX.CLR` (42_decoder.md R131). -/
  | rxClr
  /-- `RX.PUT b` (42_decoder.md R132). -/
  | rxPut (b : Byte)
  /-- `RX.CHK` (42_decoder.md R133). -/
  | rxChk
  /-- `RX.DEC` (42_decoder.md R134). -/
  | rxDec
  /-- `RX.RD i` (42_decoder.md R137). -/
  | rxRd (i : Half)
  /-- `RX.LEN` (42_decoder.md R138). -/
  | rxLen
  deriving DecidableEq, Repr

end Sys2Proof
end

