-- ==== Sys2Proof/WellFormed.lean ====
section
/-! DEFINITION. Which command words are commands: the opcode map of 30_encoding.md R70 as a list of rows, the reserved
operand bits of each form (R69), and the two checks of R71. A term of `Instr` needs no check of its own: R69 makes
every value of every operand legal and the constructors carry exactly the operand widths, so what can be ill formed
is a WORD. The decoder (Decode.lean) is written separately from this table, so that the two can be compared. -/

namespace Sys2Proof

/-- One row of the opcode map (30_encoding.md R70). -/
structure OpcodeRow where
  opcode : Byte
  mnemonic : String
  form : Form
  deriving DecidableEq, Repr

/-- The opcode map of 30_encoding.md R70. -/
def opcodeTable : List OpcodeRow :=
  [⟨0x01#8, "CRC.INIT", .none⟩, ⟨0x02#8, "CRC.UPD", .byte⟩, ⟨0x03#8, "CRC.RD", .none⟩,
   ⟨0x10#8, "TX.CLR", .none⟩, ⟨0x11#8, "TX.HDR", .header⟩, ⟨0x12#8, "TX.PUT", .byte⟩,
   ⟨0x13#8, "TX.SEAL", .none⟩, ⟨0x14#8, "TX.RD", .index⟩, ⟨0x15#8, "TX.LEN", .none⟩,
   ⟨0x20#8, "RX.CLR", .none⟩, ⟨0x21#8, "RX.PUT", .byte⟩, ⟨0x22#8, "RX.CHK", .none⟩,
   ⟨0x23#8, "RX.DEC", .none⟩, ⟨0x24#8, "RX.RD", .index⟩, ⟨0x25#8, "RX.LEN", .none⟩]

/-- The operand bits a form reserves, as a mask over `arg[47:0]` (30_encoding.md R69). -/
def Form.reservedBits : Form → Arg
  | .none => 0xFFFFFFFFFFFF#48
  | .byte => 0xFFFFFFFFFF00#48
  | .index => 0xFFFFFFFF0000#48
  | .header => 0x000000000000#48

/-- `cmd[55:48]` (30_encoding.md R68). -/
def CommandWord.op (w : CommandWord) : Byte := w.extractLsb' 48 8

/-- `cmd[47:0]` (30_encoding.md R68). -/
def CommandWord.arg (w : CommandWord) : Arg := w.extractLsb' 0 48

/-- R71 (a): the opcode is one of the 15 of rule R70. -/
def CommandWord.opcodeAssigned (w : CommandWord) : Bool :=
  opcodeTable.any fun r => r.opcode == CommandWord.op w

/-- R71 (b): no operand bit that the opcode's form reserves is 1. -/
def CommandWord.reservedBitsZero (w : CommandWord) : Bool :=
  opcodeTable.all fun r =>
    r.opcode != CommandWord.op w || (CommandWord.arg w &&& r.form.reservedBits) == 0#48

/-- A legal command word (30_encoding.md R71). -/
def CommandWord.wellFormed (w : CommandWord) : Bool :=
  CommandWord.opcodeAssigned w && CommandWord.reservedBitsZero w

end Sys2Proof
end

