-- ==== Sys2Proof/Decode.lean ====
section
/-! DEFINITION. The command decoder of 30_encoding.md R69 to R71, total on all 2^56 words and rejecting by name, and
after it the encoder of the same rules. -/

namespace Sys2Proof

/-- Why a word is no command (30_encoding.md R71). -/
inductive DecodeError where
  /-- R71 (a): the opcode is not in the map of rule R70. -/
  | reservedOpcode (op : Byte)
  /-- R71 (b): the opcode is assigned and a reserved operand bit is 1. -/
  | reservedOperandBit (op : Byte) (arg : Arg)
  deriving DecidableEq, Repr

/-- Form N: all 48 operand bits are reserved (30_encoding.md R69). -/
def decodeNone (op : Byte) (arg : Arg) (i : Instr) : Except DecodeError Instr :=
  if arg = 0#48 then .ok i else .error (.reservedOperandBit op arg)

/-- Form B: `b = arg[7:0]`, `arg[47:8]` reserved (30_encoding.md R69). -/
def decodeByte (op : Byte) (arg : Arg) (i : Byte → Instr) : Except DecodeError Instr :=
  if arg.extractLsb' 8 40 = 0#40 then .ok (i (arg.extractLsb' 0 8)) else .error (.reservedOperandBit op arg)

/-- Form I: `i = arg[15:0]`, `arg[47:16]` reserved (30_encoding.md R69). -/
def decodeIndex (op : Byte) (arg : Arg) (i : Half → Instr) : Except DecodeError Instr :=
  if arg.extractLsb' 16 32 = 0#32 then .ok (i (arg.extractLsb' 0 16)) else .error (.reservedOperandBit op arg)

/-- Form H: `sid = arg[31:0]`, `slot = arg[39:32]`, `fn = arg[47:40]`, nothing reserved (30_encoding.md R69). -/
def decodeHeader (arg : Arg) (i : ServerId → Byte → Byte → Instr) : Except DecodeError Instr :=
  .ok (i (arg.extractLsb' 0 32) (arg.extractLsb' 32 8) (arg.extractLsb' 40 8))

/-- An opcode and its operand, read by the opcode map (30_encoding.md R70). -/
def decodeOp (op : Byte) (arg : Arg) : Except DecodeError Instr :=
  match op with
  | 0x01#8 => decodeNone op arg .crcInit
  | 0x02#8 => decodeByte op arg .crcUpd
  | 0x03#8 => decodeNone op arg .crcRd
  | 0x10#8 => decodeNone op arg .txClr
  | 0x11#8 => decodeHeader arg .txHdr
  | 0x12#8 => decodeByte op arg .txPut
  | 0x13#8 => decodeNone op arg .txSeal
  | 0x14#8 => decodeIndex op arg .txRd
  | 0x15#8 => decodeNone op arg .txLen
  | 0x20#8 => decodeNone op arg .rxClr
  | 0x21#8 => decodeByte op arg .rxPut
  | 0x22#8 => decodeNone op arg .rxChk
  | 0x23#8 => decodeNone op arg .rxDec
  | 0x24#8 => decodeIndex op arg .rxRd
  | 0x25#8 => decodeNone op arg .rxLen
  | _ => .error (.reservedOpcode op)

/-- The command a 56-bit word stands for (30_encoding.md R68 to R71). -/
def decode (w : CommandWord) : Except DecodeError Instr :=
  decodeOp (w.extractLsb' 48 8) (w.extractLsb' 0 48)

/-- The opcode of a command (30_encoding.md R70). -/
def opcodeOf : Instr → Byte
  | .crcInit => 0x01#8
  | .crcUpd _ => 0x02#8
  | .crcRd => 0x03#8
  | .txClr => 0x10#8
  | .txHdr _ _ _ => 0x11#8
  | .txPut _ => 0x12#8
  | .txSeal => 0x13#8
  | .txRd _ => 0x14#8
  | .txLen => 0x15#8
  | .rxClr => 0x20#8
  | .rxPut _ => 0x21#8
  | .rxChk => 0x22#8
  | .rxDec => 0x23#8
  | .rxRd _ => 0x24#8
  | .rxLen => 0x25#8

/-- The operand bits of a command, reserved bits 0 (30_encoding.md R69). -/
def operandOf : Instr → Arg
  | .crcUpd b | .txPut b | .rxPut b => b.setWidth 48
  | .txRd i | .rxRd i => i.setWidth 48
  | .txHdr sid slot fn => fn ++ slot ++ sid
  | .crcInit | .crcRd | .txClr | .txSeal | .txLen | .rxClr | .rxChk | .rxDec | .rxLen => 0#48

/-- The command word of a command, `cmd = op, arg` from the most significant bit down (30_encoding.md R68, R75). -/
def encode (i : Instr) : CommandWord := opcodeOf i ++ operandOf i

/-- The command the decoder reads from the low 56 bits `w` of a table row's word. A command is one word of 56 bits on
the command channel (30_encoding.md R68, R74; log 4), so bit k of `w` is `cmd[k]`; a number that does not fit in the
row's `nbits` bits, or in 56, is no command word. -/
def decodeTableWord (nbits w : Nat) : Option Instr :=
  if w < 2 ^ nbits ∧ w < 2 ^ 56 then
    match decode (BitVec.ofNat 56 w) with
    | .ok i => some i
    | .error _ => none
  else none

end Sys2Proof
end

