-- ==== Sys2Proof/Machine/State.lean ====
section
/-! DEFINITION. The state of SBFC (10_state.md): three registers, two frame buffers, the block's channels, and the
parameters that travel with it; the reasons a step can stop; and the state after reset. -/

namespace Sys2Proof.Machine

/-- The two address spaces of 20_memory.md R40. -/
inductive BufferId where
  /-- `TXB`, the transmit frame buffer. -/
  | tx
  /-- `RXB`, the receive frame buffer. -/
  | rx
  deriving DecidableEq, Repr

/-- The bytes of one buffer that hold a value, as (index, byte) pairs with strictly rising indices. An index that is
not listed has no value (10_state.md R31; log 2). -/
abbrev Memory := List Host.Cell

/-- The status of a response (60_exceptions.md R171); codes 5 to 7 are never produced, so they have no name here. -/
inductive Status where
  | ok
  | overflow
  | fault
  | checksumError
  | illegal
  deriving DecidableEq, Repr

/-- One response: a status and 64 bits of data (30_encoding.md R72). -/
structure Response where
  status : Status
  data : Data
  deriving DecidableEq, Repr

/-- What the environment does next at the block's interface (70_reset_and_hazards.md R190, R199). -/
inductive Input where
  /-- The host makes a command word available on the command channel. -/
  | command (w : CommandWord)
  /-- The reset input is asserted and released between two commands (log 7). -/
  | reset
  deriving DecidableEq, Repr

/-- The state of the block and of its interface. -/
structure State where
  /-- The parameters of 00_scope.md R6; not state of the block (10_state.md R32), never changed by a step (log 1). -/
  cfg : Config
  /-- `CRC` (10_state.md R21). -/
  crc : Half
  /-- `TXLEN` (10_state.md R22). -/
  txlen : Half
  /-- `RXLEN` (10_state.md R23). -/
  rxlen : Half
  /-- `TXB` (10_state.md R27). -/
  txb : Memory
  /-- `RXB` (10_state.md R28). -/
  rxb : Memory
  /-- What the environment presents, in its order, oldest first (20_memory.md R49; log 4). -/
  inputs : List Input
  /-- The response that is available on the response channel and not yet taken (70_reset_and_hazards.md R199; log 5). -/
  rsp : Option Response
  deriving DecidableEq, Repr

/-- Why a step of the model stops. The spec's own errors are responses, not stops (60_exceptions.md R170, R176).
No state that meets the invariant of 10_state.md R29 reaches either of these. -/
inductive Fault where
  /-- Raised by a read of a buffer byte that has no value, because no command has written it since reset. Safe: the
  spec says such a byte is never read and gives it no value (10_state.md R29, R31; log 2). -/
  | unwrittenByte (buffer : BufferId) (index : Nat)
  /-- Raised by an access at an index at or above CAP, which the buffer does not have. Safe: the spec says no command
  makes one (10_state.md R27, R28, 20_memory.md R48; log 8). -/
  | outsideBuffer (buffer : BufferId) (index : Nat)
  deriving DecidableEq, Repr

/-- Why an instruction has no meaning in the model. -/
inductive Refusal where
  /-- Raised by an arm of `exec` whose instruction has no meaning yet. Safe. Every arm has its meaning, so no step of
  this model answers it. -/
  | notModelled (mnemonic : String)
  deriving DecidableEq, Repr

/-- The state right after reset for a configuration (10_state.md R31, 70_reset_and_hazards.md R191): `CRC = 0xFFFF`,
both lengths 0, no buffer byte has a value. Nothing is presented and no response is available (DESIGN CHOICE,
log 4 and 5). -/
def State.resetWith (c : Config) : State :=
  { cfg := c, crc := 0xFFFF#16, txlen := 0#16, rxlen := 0#16, txb := [], rxb := [], inputs := [], rsp := none }

/-- The state right after reset, for the configuration of the spec's test vectors (DESIGN CHOICE, log 1). -/
def State.reset : State := State.resetWith Config.vectors

end Sys2Proof.Machine
end

