-- ==== Sys2Proof/Machine/Ops.lean ====
section
/-! DEFINITION. The named operations over buffers, registers and responses: MemRead and MemWrite of 00_scope.md R10,
the multi-byte accesses built from them (20_memory.md R44), and the two ways a command ends, `respond` and `raise`
(00_scope.md R11). An error is a response and nothing else (60_exceptions.md R174, R176), so `raise` is this
hardware's whole exception entry, and there is no return from one (R177). -/

namespace Sys2Proof.Machine

/-- The canonical form of a buffer's list: strictly rising indices (log 2). -/
abbrev Memory.wf (m : Memory) : Prop := m.Pairwise fun x y => x.1 < y.1

/-- The byte a buffer holds at an index; `none` where nothing has been written (log 2). -/
def Memory.read : Memory → Nat → Option Byte
  | [], _ => none
  | (k, v) :: rest, a => if k = a then some v else Memory.read rest a

/-- The buffer with the byte at one index replaced; every other index keeps its byte. -/
def Memory.write : Memory → Nat → Byte → Memory
  | [], a, v => [(a, v)]
  | (k, w) :: rest, a, v =>
    if a < k then (a, v) :: (k, w) :: rest
    else if a = k then (a, v) :: rest
    else (k, w) :: Memory.write rest a v

/-- The buffer with the bytes from one index upward replaced by a byte sequence, in increasing index order. -/
def Memory.writeBytes : Memory → Nat → List Byte → Memory
  | m, _, [] => m
  | m, a, v :: vs => Memory.writeBytes (Memory.write m a v) (a + 1) vs

/-- The buffer an address space names (20_memory.md R40). -/
def State.buf (s : State) : BufferId → Memory
  | .tx => s.txb
  | .rx => s.rxb

/-- The state with one buffer replaced. -/
def State.setBuf (s : State) (m : Memory) : BufferId → State
  | .tx => { s with txb := m }
  | .rx => { s with rxb := m }

/-- The length register of a buffer: `TXLEN` or `RXLEN` (10_state.md R22, R23). -/
def State.len (s : State) : BufferId → Half
  | .tx => s.txlen
  | .rx => s.rxlen

/-- The state with one length register replaced. -/
def State.setLen (s : State) (n : Half) : BufferId → State
  | .tx => { s with txlen := n }
  | .rx => { s with rxlen := n }

/-- `MemRead(B, a, 1)` (00_scope.md R10). An index the buffer does not have, and a byte that has no value, stop the
model by name (log 2, 8). -/
def memRead (s : State) (buffer : BufferId) (a : Nat) : Except Fault Byte :=
  if a < s.cfg.cap then
    match Memory.read (s.buf buffer) a with
    | some v => .ok v
    | none => .error (.unwrittenByte buffer a)
  else .error (.outsideBuffer buffer a)

/-- `MemWrite(B, a, 1, v)` (00_scope.md R10). An index the buffer does not have stops the model by name (log 8). -/
def memWrite (buffer : BufferId) (a : Nat) (v : Byte) (s : State) : Except Fault State :=
  if a < s.cfg.cap then .ok (s.setBuf (Memory.write (s.buf buffer) a v) buffer)
  else .error (.outsideBuffer buffer a)

/-- The byte sequence `B[a..a+n)` in increasing index order (00_scope.md R10). -/
def readBytes (s : State) (buffer : BufferId) : Nat → Nat → Except Fault (List Byte)
  | _, 0 => .ok []
  | a, n + 1 =>
    match memRead s buffer a with
    | .error e => .error e
    | .ok v =>
      match readBytes s buffer (a + 1) n with
      | .error e => .error e
      | .ok vs => .ok (v :: vs)

/-- Bytes stored one after the other from index `a` upward. -/
def storeBytes (buffer : BufferId) : Nat → List Byte → State → Except Fault State
  | _, [], s => .ok s
  | a, v :: vs, s =>
    match memWrite buffer a v s with
    | .error e => .error e
    | .ok t => storeBytes buffer (a + 1) vs t

/-- A command that makes an access goes on with its result, or stops with the access's fault. -/
def orFault {α : Type} (r : Except Fault α) (k : α → Host.Outcome State Fault Refusal) :
    Host.Outcome State Fault Refusal :=
  match r with
  | .ok a => k a
  | .error e => .fault e

/-- The state with a response made available on the response channel (70_reset_and_hazards.md R199). -/
def State.answer (s : State) (status : Status) (data : Data) : State :=
  { s with rsp := some { status := status, data := data } }

/-- `respond(OK, d)` (00_scope.md R11), after the writes already made in the state it is given. -/
def respond (data : Data) (s : State) : Host.Outcome State Fault Refusal :=
  .next (s.answer .ok data)

/-- `raise <Status>` (00_scope.md R11): the response has data 0 and no state changes (60_exceptions.md R174). -/
def raise (status : Status) (s : State) : Host.Outcome State Fault Refusal :=
  .next (s.answer status 0#64)

/-- The number a status has in the response word (60_exceptions.md R171). -/
def statusCode : Status → BitVec 3
  | .ok => 0#3
  | .overflow => 1#3
  | .fault => 2#3
  | .checksumError => 3#3
  | .illegal => 4#3

end Sys2Proof.Machine
end

