-- ==== Sys2Proof/Machine/Operands.lean ====
section
/-! DEFINITION. The fields of operands, frames and response data: the fixed lengths of 00_scope.md R7, the byte-order
helpers of R12, the header of operand form H (30_encoding.md R69) and the data a response carries (R73). -/

namespace Sys2Proof.Machine

/-- `HDR`: the header is exactly 6 bytes (00_scope.md R7). -/
def headerLen : Nat := 6

/-- `CKS`: the checksum is always the last 2 bytes (00_scope.md R7). -/
def checksumLen : Nat := 2

/-- `MINFRAME = HDR + CKS` (00_scope.md R7). -/
def minFrame : Nat := headerLen + checksumLen

/-- `MAXPAY = CAP - 8`: the largest payload a frame can carry (00_scope.md R7). -/
def maxPayload (c : Config) : Nat := c.cap - minFrame

/-- `le32_put`: least significant byte at the lowest offset (00_scope.md R12, 20_memory.md R41). -/
def le32Put (v : BitVec 32) : List Byte :=
  [v.extractLsb' 0 8, v.extractLsb' 8 8, v.extractLsb' 16 8, v.extractLsb' 24 8]

/-- `le32_get` (00_scope.md R12). -/
def le32Get (b0 b1 b2 b3 : Byte) : BitVec 32 := b3 ++ b2 ++ b1 ++ b0

/-- `le16_put`: low byte, then high byte (00_scope.md R12, 20_memory.md R42). -/
def le16Put (v : BitVec 16) : List Byte := [v.extractLsb' 0 8, v.extractLsb' 8 8]

/-- `le16_get` (00_scope.md R12). -/
def le16Get (b0 b1 : Byte) : BitVec 16 := b1 ++ b0

/-- The six header bytes at frame offsets 0 to 5 (30_encoding.md R60, R69). -/
def headerBytes (sid : ServerId) (slot fn : Byte) : List Byte := le32Put sid ++ [slot, fn]

/-- A 16-bit length or CRC as response data, the other bits 0 (30_encoding.md R72, R73). -/
def halfData (v : Half) : Data := v.setWidth 64

/-- A byte as response data, the other bits 0 (30_encoding.md R72, R73). -/
def byteData (v : Byte) : Data := v.setWidth 64

/-- The verdict of `RX.CHK` in `data[0]` (30_encoding.md R73). -/
def verdictData (v : Bool) : Data := if v then 1#64 else 0#64

/-- The response of `RX.DEC`: payload length, function, slot id and server identifier, from bit 63 down
(30_encoding.md R73, 42_decoder.md R134). -/
def headerData (n : Nat) (fn slot : Byte) (sid : ServerId) : Data := BitVec.ofNat 16 n ++ fn ++ slot ++ sid

end Sys2Proof.Machine
end

