-- ==== Sys2Proof/Machine/Checksum.lean ====
section
/-! DEFINITION. The CRC16-Modbus functions of 40_crc.md: `crc_step` (R90), `crc16` (R91) and the bit-serial form
(R92). -/

namespace Sys2Proof.Machine

/-- The polynomial constant `POLY` (00_scope.md R7). -/
def crcPoly : BitVec 16 := 0xA001#16

/-- The initial value `CRC_INIT` (00_scope.md R7). -/
def crcStart : BitVec 16 := 0xFFFF#16

/-- One of the eight iterations of `crc_step`: bit 0 is tested before the shift and the polynomial applied after it
(40_crc.md R90, which marks this detail as general knowledge; log 9). -/
def crcShift (c : BitVec 16) : BitVec 16 :=
  if c.getLsbD 0 then (c >>> 1) ^^^ crcPoly else c >>> 1

/-- `n` iterations of the shift step. -/
def crcShifts : Nat → BitVec 16 → BitVec 16
  | 0, c => c
  | n + 1, c => crcShifts n (crcShift c)

/-- `crc_step(c, b)`: the byte goes into the low 8 bits of the register, then 8 iterations (40_crc.md R90). -/
def crcStep (c : BitVec 16) (b : Byte) : BitVec 16 := crcShifts 8 (c ^^^ b.setWidth 16)

/-- The checksum of a byte sequence continued from a value of the register (40_crc.md R91, R93 (e)). -/
def crcFrom (c : BitVec 16) (bs : List Byte) : BitVec 16 := bs.foldl crcStep c

/-- `crc16(bs)`: from the initial value, bytes in increasing offset order, no final exclusive-or (40_crc.md R91). -/
def crc16 (bs : List Byte) : BitVec 16 := crcFrom crcStart bs

/-- `crc_bit(c, d)`: the bit-serial form, one data bit per clock (40_crc.md R92). -/
def crcBit (c : BitVec 16) (d : Bool) : BitVec 16 :=
  if c.getLsbD 0 != d then (c >>> 1) ^^^ crcPoly else c >>> 1

/-- The eight data bits of a byte, bit 0 first (40_crc.md R92). -/
def dataBits (b : Byte) : List Bool :=
  [b.getLsbD 0, b.getLsbD 1, b.getLsbD 2, b.getLsbD 3, b.getLsbD 4, b.getLsbD 5, b.getLsbD 6, b.getLsbD 7]

/-- `crc_step` in its bit-serial form (40_crc.md R92). -/
def crcStepSerial (c : BitVec 16) (b : Byte) : BitVec 16 := (dataBits b).foldl crcBit c

end Sys2Proof.Machine
end

