-- ==== Sys2Proof/Machine/Flags.lean ====
section
/-! DEFINITION. The conditions that select a response's status. The block holds no flags or condition codes
(10_state.md R26); what a flag would say elsewhere is computed here from the state, once for each condition of
60_exceptions.md R172. -/

namespace Sys2Proof.Machine

/-- Fewer than `n` bytes are free above a buffer's length: `len + n > CAP` on natural numbers
(41_encoder.md R113, R115, 42_decoder.md R132, 10_state.md R29 (c)). -/
def lacksRoom (s : State) (buffer : BufferId) (n : Nat) : Bool :=
  decide (s.cfg.cap < (s.len buffer).toNat + n)

/-- An index at or above a buffer's length: `i >= len` (41_encoder.md R117, 42_decoder.md R137). -/
def beyondLength (s : State) (buffer : BufferId) (i : Half) : Bool :=
  decide ((s.len buffer).toNat ≤ i.toNat)

/-- The receive buffer holds fewer than `n` bytes (42_decoder.md R133, R134). -/
def receivedFewerThan (s : State) (n : Nat) : Bool :=
  decide (s.rxlen.toNat < n)

/-- The two trailer bytes are a checksum's low byte and then its high byte (42_decoder.md R133, R134). -/
def trailerIs (c : BitVec 16) (lo hi : Byte) : Bool :=
  lo == c.extractLsb' 0 8 && hi == c.extractLsb' 8 8

/-- Whether the last two bytes of `RXB[0..RXLEN)` are the checksum of the bytes before them (42_decoder.md R133,
R134). It is asked only where `RXLEN >= 2`. -/
def trailerMatches (s : State) : Except Fault Bool := do
  let bs ← readBytes s .rx 0 (s.rxlen.toNat - 2)
  let lo ← memRead s .rx (s.rxlen.toNat - 2)
  let hi ← memRead s .rx (s.rxlen.toNat - 1)
  return trailerIs (crc16 bs) lo hi

end Sys2Proof.Machine
end

