-- ==== Sys2Proof/Machine/Transfer.lean ====
section
/-! DEFINITION. The commands' shared shapes over a buffer and its length register: empty it, append bytes to it, read
one byte of it, read its length (41_encoder.md R111 to R118, 42_decoder.md R131 to R138). -/

namespace Sys2Proof.Machine

/-- Set a buffer's length to 0; its bytes keep their values (41_encoder.md R111, 42_decoder.md R131). -/
def clearBuffer (buffer : BufferId) (s : State) : Host.Outcome State Fault Refusal :=
  respond 0#64 (s.setLen 0#16 buffer)

/-- Store bytes at a buffer's end, advance its length past them and answer the new length
(41_encoder.md R113, R115, 42_decoder.md R132). -/
def appendBytes (buffer : BufferId) (bs : List Byte) (s : State) : Host.Outcome State Fault Refusal :=
  orFault (storeBytes buffer (s.len buffer).toNat bs s) fun t =>
    let n : Half := BitVec.ofNat 16 ((s.len buffer).toNat + bs.length)
    respond (halfData n) (t.setLen n buffer)

/-- Answer one byte of a buffer's valid bytes, or `OVERFLOW` for an index at or above its length
(41_encoder.md R117, 42_decoder.md R137). -/
def readIndex (buffer : BufferId) (i : Half) (s : State) : Host.Outcome State Fault Refusal :=
  if beyondLength s buffer i then raise .overflow s
  else orFault (memRead s buffer i.toNat) fun v => respond (byteData v) s

/-- Answer a buffer's length (41_encoder.md R118, 42_decoder.md R138). -/
def readLength (buffer : BufferId) (s : State) : Host.Outcome State Fault Refusal :=
  respond (halfData (s.len buffer)) s

end Sys2Proof.Machine
end

