-- ==== Sys2Proof/Machine/CrcUnit.lean ====
section
/-! DEFINITION. The commands of the CRC16-Modbus unit (40_crc.md section 2). -/

namespace Sys2Proof.Machine

/-- `CRC.INIT` (40_crc.md R94). -/
def execCrcInit (s : State) : Host.Outcome State Fault Refusal :=
  respond 0#64 { s with crc := crcStart }

/-- `CRC.UPD b` (40_crc.md R95). -/
def execCrcUpd (b : Byte) (s : State) : Host.Outcome State Fault Refusal :=
  respond 0#64 { s with crc := crcStep s.crc b }

/-- `CRC.RD` (40_crc.md R96). -/
def execCrcRd (s : State) : Host.Outcome State Fault Refusal :=
  respond (halfData s.crc) s

end Sys2Proof.Machine
end

