-- ==== Sys2Proof/Machine/Decoder.lean ====
section
/-! DEFINITION. The frame decoder's commands (42_decoder.md). -/

namespace Sys2Proof.Machine

/-- `RX.CLR` (42_decoder.md R131). -/
def execRxClr (s : State) : Host.Outcome State Fault Refusal :=
  clearBuffer .rx s

/-- `RX.PUT b` (42_decoder.md R132): the whole buffer may be filled. -/
def execRxPut (b : Byte) (s : State) : Host.Outcome State Fault Refusal :=
  if lacksRoom s .rx 1 then raise .overflow s else appendBytes .rx [b] s

/-- `RX.CHK` (42_decoder.md R133): a verdict, never an error. -/
def execRxChk (s : State) : Host.Outcome State Fault Refusal :=
  if receivedFewerThan s 2 then respond (verdictData false) s
  else orFault (trailerMatches s) fun v => respond (verdictData v) s

/-- The header fields and the payload length of the frame in the receive buffer (42_decoder.md R134). -/
def parseHeader (s : State) : Except Fault Data := do
  let b0 ← memRead s .rx 0
  let b1 ← memRead s .rx 1
  let b2 ← memRead s .rx 2
  let b3 ← memRead s .rx 3
  let slot ← memRead s .rx 4
  let fn ← memRead s .rx 5
  return headerData (s.rxlen.toNat - minFrame) fn slot (le32Get b0 b1 b2 b3)

/-- `RX.DEC` (42_decoder.md R134): the length test comes before the checksum test (R135), and nothing else is
checked (R136). -/
def execRxDec (s : State) : Host.Outcome State Fault Refusal :=
  if receivedFewerThan s minFrame then raise .fault s
  else orFault (trailerMatches s) fun v =>
    if v then orFault (parseHeader s) fun d => respond d s else raise .checksumError s

/-- `RX.RD i` (42_decoder.md R137). -/
def execRxRd (i : Half) (s : State) : Host.Outcome State Fault Refusal :=
  readIndex .rx i s

/-- `RX.LEN` (42_decoder.md R138). -/
def execRxLen (s : State) : Host.Outcome State Fault Refusal :=
  readLength .rx s

end Sys2Proof.Machine
end

