-- ==== Sys2Proof/Machine/Encoder.lean ====
section
/-! DEFINITION. The frame encoder's commands (41_encoder.md). -/

namespace Sys2Proof.Machine

/-- `TX.CLR` (41_encoder.md R111). -/
def execTxClr (s : State) : Host.Outcome State Fault Refusal :=
  clearBuffer .tx s

/-- `TX.HDR sid, slot, fn` (41_encoder.md R112): the header goes to `TXB[0..6)` whatever the buffer held, and
`TXLEN` becomes 6. -/
def execTxHdr (sid : ServerId) (slot fn : Byte) (s : State) : Host.Outcome State Fault Refusal :=
  orFault (storeBytes .tx 0 (headerBytes sid slot fn) s) fun t =>
    respond 6#64 (t.setLen 6#16 .tx)

/-- `TX.PUT b` (41_encoder.md R113): the byte and the two checksum bytes must still fit. -/
def execTxPut (b : Byte) (s : State) : Host.Outcome State Fault Refusal :=
  if lacksRoom s .tx 3 then raise .overflow s else appendBytes .tx [b] s

/-- `TX.SEAL` (41_encoder.md R115, R116): the checksum of all `TXLEN` bytes, low byte first. -/
def execTxSeal (s : State) : Host.Outcome State Fault Refusal :=
  if lacksRoom s .tx 2 then raise .overflow s
  else orFault (readBytes s .tx 0 s.txlen.toNat) fun bs => appendBytes .tx (le16Put (crc16 bs)) s

/-- `TX.RD i` (41_encoder.md R117). -/
def execTxRd (i : Half) (s : State) : Host.Outcome State Fault Refusal :=
  readIndex .tx i s

/-- `TX.LEN` (41_encoder.md R118). -/
def execTxLen (s : State) : Host.Outcome State Fault Refusal :=
  readLength .tx s

end Sys2Proof.Machine
end

