-- ==== Sys2Proof/Machine/Dispatch.lean ====
section
/-! DEFINITION. One arm for each command of 30_encoding.md R70, each a call of its meaning. -/

namespace Sys2Proof.Machine

def exec (i : Instr) (s : State) : Host.Outcome State Fault Refusal :=
  match i with
  | .crcInit => Sys2Proof.Machine.execCrcInit s
  | .crcUpd b => Sys2Proof.Machine.execCrcUpd b s
  | .crcRd => Sys2Proof.Machine.execCrcRd s
  | .txClr => Sys2Proof.Machine.execTxClr s
  | .txHdr sid slot fn => Sys2Proof.Machine.execTxHdr sid slot fn s
  | .txPut b => Sys2Proof.Machine.execTxPut b s
  | .txSeal => Sys2Proof.Machine.execTxSeal s
  | .txRd index => Sys2Proof.Machine.execTxRd index s
  | .txLen => Sys2Proof.Machine.execTxLen s
  | .rxClr => Sys2Proof.Machine.execRxClr s
  | .rxPut b => Sys2Proof.Machine.execRxPut b s
  | .rxChk => Sys2Proof.Machine.execRxChk s
  | .rxDec => Sys2Proof.Machine.execRxDec s
  | .rxRd index => Sys2Proof.Machine.execRxRd index s
  | .rxLen => Sys2Proof.Machine.execRxLen s

end Sys2Proof.Machine
end

