-- ==== Sys2Proof/Machine/Port.lean ====
section
/-! DEFINITION. The block's interface: taking a command word, taking a response, and the reset input
(70_reset_and_hazards.md R190, R199; 30_encoding.md R71). -/

namespace Sys2Proof.Machine

/-- The block takes a command word: a legal one is executed, any other answers `ILLEGAL` before any state is looked at
(30_encoding.md R71, 60_exceptions.md R173). -/
def runWord (w : CommandWord) (s : State) : Host.Outcome State Fault Refusal :=
  match decode w with
  | .ok i => exec i s
  | .error _ => raise .illegal s

/-- The host takes the response that is available (70_reset_and_hazards.md R199; log 5). -/
def takeResponse (s : State) : State := { s with rsp := none }

/-- The reset input brings the block to the reset state from any state, and a response not yet taken is withdrawn
(70_reset_and_hazards.md R190, R191; log 3, 7). What the environment presents after the reset is kept. -/
def applyReset (s : State) (rest : List Input) : State := { State.resetWith s.cfg with inputs := rest }

/-- The host makes a command word available next, having taken any response still available. -/
def present (w : CommandWord) (s : State) : State :=
  { s with inputs := .command w :: s.inputs, rsp := none }

end Sys2Proof.Machine
end

