-- ==== Sys2Proof/Machine/Step.lean ====
section
/-! DEFINITION. One step of SBFC (00_scope.md R13): what happens next at the block's interface. -/

namespace Sys2Proof.Machine

/-- One step. A reset that comes next is applied. A command that comes next is executed if no response is pending; a
pending response is taken by the host first, so commands and responses alternate strictly (70_reset_and_hazards.md
R199; log 5). With nothing presented the block holds its state (60_exceptions.md R183; log 6). -/
def step (s : State) : Host.Outcome State Fault Refusal :=
  match s.inputs with
  | [] => .next s
  | .reset :: rest => .next (applyReset s rest)
  | .command w :: rest =>
    match s.rsp with
    | some _ => .next (takeResponse s)
    | none => runWord w { s with inputs := rest }

/-- The state with a table row's word presented as the next command (log 4): the block has no program counter and
fetches nothing, so this is the host making that word available, with no response pending. -/
def State.withFetchWord (s : State) (nbits w : Nat) : State :=
  present (BitVec.ofNat 56 (w % 2 ^ nbits)) s

end Sys2Proof.Machine
end

