-- ==== Sys2Proof/Machine/Frame.lean ====
section
/-! DEFINITION. Frames as byte sequences: the frame an encoder builds (30_encoding.md R60), well-formed frames (R66),
the classification of function bytes (R65) and protocol-conforming frames (R67). No command computes these; they are
what claims speak of. -/

namespace Sys2Proof.Machine

/-- A byte sequence followed by its checksum, low byte first (30_encoding.md R60, 43_frame_laws.md R153). -/
def sealed (bs : List Byte) : List Byte := bs ++ le16Put (crc16 bs)

/-- The frame with the given header and payload (30_encoding.md R60). -/
def frame (sid : ServerId) (slot fn : Byte) (payload : List Byte) : List Byte :=
  sealed (headerBytes sid slot fn ++ payload)

/-- Condition (c) of 30_encoding.md R66, for a sequence of at least 2 bytes: `f[L-2]` and `f[L-1]` are the low and the
high byte of `crc16(f[0..L-2))`. -/
def trailerVerifies (f : List Byte) : Prop :=
  2 ≤ f.length ∧ f[f.length - 2]? = some ((crc16 (f.take (f.length - 2))).extractLsb' 0 8) ∧
    f[f.length - 1]? = some ((crc16 (f.take (f.length - 2))).extractLsb' 8 8)

/-- `WF(f)` for a capacity: a well-formed frame (30_encoding.md R66). -/
def WellFormedFrame (cap : Nat) (f : List Byte) : Prop :=
  8 ≤ f.length ∧ f.length ≤ cap ∧ trailerVerifies f

/-- The classes of 30_encoding.md R65. -/
inductive FnClass where
  | getReq
  | setReq
  | getResp
  | setResp
  | unknown
  deriving DecidableEq, Repr

/-- `fn_class(f)` (30_encoding.md R65). -/
def fnClass (c : Config) (f : Byte) : FnClass :=
  if f = c.fnGetReq then .getReq
  else if f = c.fnSetReq then .setReq
  else if f = c.fnGetResp then .getResp
  else if f = c.fnSetResp then .setResp
  else .unknown

/-- `PF(f)`: a protocol-conforming frame (30_encoding.md R67). The block enforces none of it beyond `WF`. -/
def ProtocolFrame (c : Config) (f : List Byte) : Prop :=
  WellFormedFrame c.cap f ∧ ∃ fn, f[5]? = some fn ∧ fnClass c fn ≠ .unknown ∧
    (fnClass c fn = .getReq ∨ fnClass c fn = .setResp → f.length = 8)

end Sys2Proof.Machine
end

