-- ==== Sys2Proof/Machine/Pseudo.lean ====
section
/-! DEFINITION. The pseudo-operations of 30_encoding.md R77 to R81: fixed command sequences that the host issues in
order, stopping at the first response whose status is not `OK`. That early stop is the host's, not the block's. -/

namespace Sys2Proof.Machine

/-- The host issues one command and the block takes it; the response is then available. -/
def issue (i : Instr) (s : State) : Host.Outcome State Fault Refusal := step (present (encode i) s)

/-- The available response says `OK`. -/
def State.respondedOk (s : State) : Bool :=
  match s.rsp with
  | some r => r.status == .ok
  | none => false

/-- The host issues commands in order and stops at the first response whose status is not `OK` (30_encoding.md R77).
The last response stays available in the state that is answered, and its status is the pseudo-operation's. -/
def issueAll : List Instr → State → Host.Outcome State Fault Refusal
  | [], s => .next s
  | i :: rest, s =>
    match issue i s with
    | .next t => if t.respondedOk then issueAll rest t else .next t
    | .fault e => .fault e
    | .refused e => .refused e

/-- `CRC16 bs` (30_encoding.md R78). -/
def crc16Ops (bs : List Byte) : List Instr := .crcInit :: bs.map .crcUpd ++ [.crcRd]

/-- `ENCODE sid, slot, fn, p` (30_encoding.md R79). -/
def encodeOps (sid : ServerId) (slot fn : Byte) (p : List Byte) : List Instr :=
  .txHdr sid slot fn :: p.map .txPut ++ [.txSeal]

/-- `DECODE f` (30_encoding.md R80). -/
def decodeOps (f : List Byte) : List Instr := .rxClr :: f.map .rxPut ++ [.rxDec]

/-- `APPENDCRC bs` (30_encoding.md R81). -/
def appendCrcOps (bs : List Byte) : List Instr := .txClr :: bs.map .txPut ++ [.txSeal]

/-- `VERIFY f` (30_encoding.md R81). -/
def verifyOps (f : List Byte) : List Instr := .rxClr :: f.map .rxPut ++ [.rxChk]

end Sys2Proof.Machine
end

