-- ==== Sys2Proof/Safety.lean ====
section
/-! DEFINITION. What a good state and a safe run are, in the terms statements use: the state invariant of 10_state.md
R29, what of a state is observable (R30), and what each kind of command may change (R21 to R23, R119, R195). -/

namespace Sys2Proof.Machine

/-- One buffer and its length obey 10_state.md R29: the length is at most CAP, every byte below it holds a value, and
the list of bytes is in canonical form and holds only indices the buffer has. -/
structure BufferInv (s : State) (buffer : BufferId) : Prop where
  /-- R29 (a). -/
  len_le : (s.len buffer).toNat ≤ s.cfg.cap
  /-- R29 (b): every byte below the length has been written since reset. -/
  written : ∀ i, i < (s.len buffer).toNat → (Memory.read (s.buf buffer) i).isSome
  /-- The canonical form of the list (log 2). -/
  wf : Memory.wf (s.buf buffer)
  /-- R27, R28: indices are 0 to CAP-1. -/
  inside : ∀ cell ∈ s.buf buffer, cell.1 < s.cfg.cap

/-- 30_encoding.md R72: the data of a response that is not `OK` is 0. -/
def ResponseInv (s : State) : Prop :=
  ∀ r, s.rsp = some r → r.status ≠ .ok → r.data = 0#64

/-- The state invariant: the parameters obey 00_scope.md R6, both buffers obey 10_state.md R29, and the available
response obeys 30_encoding.md R72. -/
structure Inv (s : State) : Prop where
  config : s.cfg.Valid
  transmit : BufferInv s .tx
  receive : BufferInv s .rx
  response : ResponseInv s

/-- The valid bytes of a buffer, `B[0..len)`. -/
def validBytes (s : State) (buffer : BufferId) : Except Fault (List Byte) :=
  readBytes s buffer 0 (s.len buffer).toNat

/-- The valid bytes of a buffer are exactly `bs`. -/
def Holds (s : State) (buffer : BufferId) (bs : List Byte) : Prop :=
  (s.len buffer).toNat = bs.length ∧ validBytes s buffer = .ok bs

/-- Every byte of a buffer outside the indices `lo` to `lo + n - 1` reads the same in two states. -/
def SameBytesOutside (buffer : BufferId) (lo n : Nat) (s t : State) : Prop :=
  ∀ a, a < lo ∨ lo + n ≤ a → Memory.read (t.buf buffer) a = Memory.read (s.buf buffer) a

/-- A command leaves one buffer and its length alone. -/
def SameBuffer (buffer : BufferId) (s t : State) : Prop :=
  t.buf buffer = s.buf buffer ∧ t.len buffer = s.len buffer

/-- Two states that no command can tell apart: equal parameters, registers, and valid bytes of both buffers
(10_state.md R30, 70_reset_and_hazards.md R201). Bytes at or above a length, and the interface, are not compared. -/
structure Alike (s t : State) : Prop where
  cfg : t.cfg = s.cfg
  crc : t.crc = s.crc
  txlen : t.txlen = s.txlen
  rxlen : t.rxlen = s.rxlen
  txBytes : ∀ a, a < s.txlen.toNat → Memory.read t.txb a = Memory.read s.txb a
  rxBytes : ∀ a, a < s.rxlen.toNat → Memory.read t.rxb a = Memory.read s.rxb a

/-- Nothing differs but one buffer, its length and the response: the parameters, `CRC`, the other buffer with its
length, and what the environment presents are the same. -/
structure OnlyBufferChanges (buffer : BufferId) (s t : State) : Prop where
  cfg : t.cfg = s.cfg
  crc : t.crc = s.crc
  inputs : t.inputs = s.inputs
  other : ∀ b, b ≠ buffer → SameBuffer b s t

/-- The commands that write `CRC` (10_state.md R21, R24). -/
def writesCrc : Instr → Bool
  | .crcInit | .crcUpd _ => true
  | .crcRd | .txClr | .txHdr _ _ _ | .txPut _ | .txSeal | .txRd _ | .txLen
  | .rxClr | .rxPut _ | .rxChk | .rxDec | .rxRd _ | .rxLen => false

/-- The commands that write `TXB` or `TXLEN` (10_state.md R22, R24, R27). -/
def writesTransmit : Instr → Bool
  | .txClr | .txHdr _ _ _ | .txPut _ | .txSeal => true
  | .crcInit | .crcUpd _ | .crcRd | .txRd _ | .txLen
  | .rxClr | .rxPut _ | .rxChk | .rxDec | .rxRd _ | .rxLen => false

/-- The commands that write `RXB` or `RXLEN` (10_state.md R23, R24, R28). -/
def writesReceive : Instr → Bool
  | .rxClr | .rxPut _ => true
  | .crcInit | .crcUpd _ | .crcRd | .txClr | .txHdr _ _ _ | .txPut _ | .txSeal | .txRd _ | .txLen
  | .rxChk | .rxDec | .rxRd _ | .rxLen => false

/-- The commands whose effect does not depend on the state they replace (20_memory.md R46). -/
def setsWhatever : Instr → Bool
  | .crcInit | .txClr | .rxClr | .txHdr _ _ _ => true
  | .crcUpd _ | .crcRd | .txPut _ | .txSeal | .txRd _ | .txLen
  | .rxPut _ | .rxChk | .rxDec | .rxRd _ | .rxLen => false

/-- Every word with the given opcode and a 1 in a bit its form reserves answers `ILLEGAL` with data 0 and changes no
state (30_encoding.md R71). -/
def RefusesReservedBits (op : Byte) (form : Form) : Prop :=
  ∀ (arg : Arg) (s : State), arg &&& form.reservedBits ≠ 0#48 →
    runWord (op ++ arg) s = .next (s.answer .illegal 0#64)

/-- The data of an `RX.DEC` response names the header of a byte sequence and its payload length, in the bits that
30_encoding.md R73 gives each. -/
def ParsesHeader (d : Data) (f : List Byte) : Prop :=
  ∃ b0 b1 b2 b3 slot fn rest, f = b0 :: b1 :: b2 :: b3 :: slot :: fn :: rest ∧
    d.extractLsb' 0 32 = le32Get b0 b1 b2 b3 ∧ d.extractLsb' 32 8 = slot ∧ d.extractLsb' 40 8 = fn ∧
    (d.extractLsb' 48 16).toNat = f.length - 8

/-- Two byte sequences of equal length that differ in exactly one bit (43_frame_laws.md R154). -/
def DifferInOneBit (f g : List Byte) : Prop :=
  ∃ (before : List Byte) (b : Byte) (after : List Byte) (k : Nat), k < 8 ∧
    f = before ++ b :: after ∧ g = before ++ (b ^^^ (1#8 <<< k)) :: after

end Sys2Proof.Machine
end

