-- ==== Sys2Proof/Certificates/Slice0/Obligations.lean ====
section
/-! DEFINITION. The statements for the provers. Each says which rule of spec/ it formalises. A clause that rests on a
choice of the model names the log entry. -/

open Sys2Proof Sys2Proof.Machine

/-! ### Encoding -/

/-- 30_encoding.md R69, R70: decoding an encoded command gives it back with every operand, and a word that decodes
to a command is the one word that encodes it. -/
def Obligations.DecodeInvertsEncode : Prop :=
  (∀ i : Instr, decode (encode i) = .ok i) ∧
  (∀ (w : CommandWord) (i : Instr), decode w = .ok i → encode i = w)

/-- 30_encoding.md R71: the decoder refuses exactly the words with an opcode outside the map of R70 or a 1 in a
reserved operand bit, and names which of the two it is. -/
def Obligations.DecoderRefusesExactlyIllegalWords : Prop :=
  ∀ w : CommandWord,
    ((∃ i, decode w = .ok i) ↔ w.wellFormed = true) ∧
    (decode w = .error (.reservedOpcode w.op) ↔ w.opcodeAssigned = false) ∧
    (decode w = .error (.reservedOperandBit w.op w.arg) ↔
      w.opcodeAssigned = true ∧ w.reservedBitsZero = false)

/-- Words written out from 30_encoding.md R69, R70 and R75, one for each operand form and unit. -/
def Obligations.WrittenOutWordsDecode : Prop :=
  decode 0x11000212345678#56 = .ok (.txHdr 0x12345678#32 0x02#8 0x00#8) ∧
  decode 0x120000000000AB#56 = .ok (.txPut 0xAB#8) ∧
  decode 0x01000000000000#56 = .ok .crcInit ∧
  decode 0x02000000000031#56 = .ok (.crcUpd 0x31#8) ∧
  decode 0x1400000000FFFF#56 = .ok (.txRd 0xFFFF#16) ∧
  decode 0x23000000000000#56 = .ok .rxDec ∧
  decode 0x24000000000006#56 = .ok (.rxRd 6#16)

/-! ### The step -/

/-- 00_scope.md R13, 70_reset_and_hazards.md R199: when a command word is presented and no response is pending, the
step takes the word off the command channel; it is `exec i` on that state if the word decodes to `i`, and the
response `ILLEGAL` with nothing else changed if it decodes to nothing. (How the channels are held is the model's
choice, log 4 and 5.) -/
def Obligations.StepRunsTheDecodedCommand : Prop :=
  ∀ (s : State) (w : CommandWord) (rest : List Input), s.inputs = .command w :: rest → s.rsp = none →
    (∀ i : Instr, decode w = .ok i → step s = exec i { s with inputs := rest }) ∧
    (∀ e : DecodeError, decode w = .error e →
      step s = .next { s with inputs := rest, rsp := some { status := .illegal, data := 0#64 } })

/-- 30_encoding.md R71 (decision D13 of the spec): a word with a reserved opcode or a 1 in a reserved operand bit
answers `ILLEGAL` with data 0 and changes no state; every other word decodes to a command; the reserved opcodes are
0x00, 0x04 to 0x0F, 0x16 to 0x1F and 0x26 to 0xFF, 241 values. -/
def Obligations.IllegalWordsChangeNothing : Prop :=
  (∀ (w : CommandWord) (s : State), (w.opcodeAssigned = false ∨ w.reservedBitsZero = false) →
    runWord w s = .next (s.answer .illegal 0#64)) ∧
  (∀ w : CommandWord, w.wellFormed = true → ∃ i, decode w = .ok i) ∧
  (∀ w : CommandWord, w.opcodeAssigned = false ↔
    w.op.toNat = 0x00 ∨ (0x04 ≤ w.op.toNat ∧ w.op.toNat ≤ 0x0F) ∨ (0x16 ≤ w.op.toNat ∧ w.op.toNat ≤ 0x1F) ∨
      0x26 ≤ w.op.toNat) ∧
  ((List.range 256).countP fun op => opcodeTable.all fun r => r.opcode != BitVec.ofNat 8 op) = 241

/-- 70_reset_and_hazards.md R199: the block takes a new command only after the response to the previous one has been
taken, and every command taken makes one response available. That the host takes a pending response before its next
command is the model's choice, log 5. -/
def Obligations.CommandsAndResponsesAlternate : Prop :=
  ∀ (s : State) (w : CommandWord) (rest : List Input), Inv s → s.inputs = .command w :: rest →
    (∀ r, s.rsp = some r → step s = .next { s with rsp := none }) ∧
    (s.rsp = none → ∃ t r, step s = .next t ∧ t.rsp = some r ∧ t.inputs = rest)

/-- 70_reset_and_hazards.md R190, R191: a reset taken in any state gives `CRC = 0xFFFF`, both lengths 0, and no
readable byte in either buffer. That a response not yet taken is withdrawn and that the old bytes are forgotten is
the model's choice, log 3 and 7. -/
def Obligations.ResetInputGivesResetState : Prop :=
  ∀ (s : State) (rest : List Input), s.inputs = .reset :: rest →
    step s = .next { cfg := s.cfg, crc := 0xFFFF#16, txlen := 0#16, rxlen := 0#16, txb := [], rxb := [],
                     inputs := rest, rsp := none }

/-- 60_exceptions.md R183: between commands the block simply holds its state. That nothing presented is a step of its
own is the model's choice, log 6. -/
def Obligations.NothingPresentedHoldsState : Prop :=
  ∀ s : State, s.inputs = [] → step s = .next s

/-- 10_state.md R31, 70_reset_and_hazards.md R191: after reset `CRC = 0xFFFF`, `TXLEN = 0` and `RXLEN = 0`, for every
valid configuration. That an unspecified buffer byte is one with no value is the model's choice, log 2. -/
def Obligations.ResetRegisterValues : Prop :=
  ∀ c : Config, c.Valid →
    (State.resetWith c).crc = 0xFFFF#16 ∧ (State.resetWith c).txlen = 0#16 ∧ (State.resetWith c).rxlen = 0#16 ∧
    ∀ (b : BufferId) (a : Nat), Memory.read ((State.resetWith c).buf b) a = none

/-- 10_state.md R29, R31: the reset state obeys the invariant, for every valid configuration and for the fixed one of
log 1, whatever the environment presents. -/
def Obligations.ResetObeysInvariant : Prop :=
  Inv State.reset ∧
  ∀ (c : Config) (ins : List Input), c.Valid → Inv { State.resetWith c with inputs := ins }

/-- 10_state.md R29 (a), (b): from every state that obeys the invariant a step answers a next state that obeys it,
with the parameters unchanged; so the model never stops with a fault or a refusal, and no command uses a byte that
has no value. -/
def Obligations.EveryStepKeepsInvariant : Prop :=
  ∀ s : State, Inv s → ∃ t, step s = .next t ∧ Inv t ∧ t.cfg = s.cfg

/-- 70_reset_and_hazards.md R200: every command ends in its response, whatever the state. From every state that obeys
the invariant, at most two steps for each thing presented leave nothing presented: one for the command, and one in
which the host takes the response before it (log 5). -/
def Obligations.EveryPresentedCommandEnds : Prop :=
  ∀ s : State, Inv s → ∃ t, Sys2Proof.core.run (2 * s.inputs.length) s = .next t ∧ t.inputs = [] ∧ Inv t

/-! ### The CRC unit -/

/-- 40_crc.md R94. -/
def Obligations.CrcInitSetsInitialValue : Prop :=
  (∀ s : State, exec .crcInit s = .next ({ s with crc := 0xFFFF#16 }.answer .ok 0#64)) ∧
  decode (0x01#8 ++ 0#48) = .ok .crcInit ∧ RefusesReservedBits 0x01#8 .none

/-- The pseudocode, encoding, statuses and values of 40_crc.md R95: `CRC.UPD` folds one byte into the accumulator and
changes nothing else. The two values rest on the detail of the byte step that the spec marks as general knowledge
(log 9). -/
def Obligations.CrcUpdFoldsOneByte : Prop :=
  (∀ (b : Byte) (s : State), exec (.crcUpd b) s = .next ({ s with crc := crcStep s.crc b }.answer .ok 0#64)) ∧
  (∀ b : Byte, decode (0x02#8 ++ b.setWidth 48) = .ok (.crcUpd b)) ∧ RefusesReservedBits 0x02#8 .byte ∧
  crcStep 0xFFFF#16 0x31#8 = 0x947E#16 ∧ crcStep 0xFFFF#16 0x00#8 = 0x40BF#16

/-- 40_crc.md R96: the accumulator as it is, in `data[15:0]`. -/
def Obligations.CrcRdReadsAccumulator : Prop :=
  (∀ s : State, exec .crcRd s = .next (s.answer .ok (s.crc.setWidth 64))) ∧
  decode (0x03#8 ++ 0#48) = .ok .crcRd ∧ RefusesReservedBits 0x03#8 .none

/-! ### The frame encoder -/

/-- 41_encoder.md R111: `TXLEN` becomes 0 and the bytes of `TXB` keep their values. -/
def Obligations.TxClrEmptiesTransmitBuffer : Prop :=
  (∀ s : State, exec .txClr s = .next ({ s with txlen := 0#16 }.answer .ok 0#64)) ∧
  decode (0x10#8 ++ 0#48) = .ok .txClr ∧ RefusesReservedBits 0x10#8 .none

/-- 41_encoder.md R112: `TXB[k] <- arg[8k+7:8k]` for k = 0..5 where `arg` is the operand of the command word, `TXLEN`
becomes 6 whatever it was, every other byte and everything else is unchanged; never `ILLEGAL`, never `OVERFLOW`. -/
def Obligations.TxHdrWritesHeader : Prop :=
  (∀ (sid : ServerId) (slot fn : Byte) (s : State), s.cfg.Valid → ∃ t, exec (.txHdr sid slot fn) s = .next t ∧
    (∀ k, k < 6 → Memory.read t.txb k = some ((encode (.txHdr sid slot fn)).extractLsb' (8 * k) 8)) ∧
    SameBytesOutside .tx 0 6 s t ∧ t.txlen = 6#16 ∧ t.rsp = some { status := .ok, data := 6#64 } ∧
    OnlyBufferChanges .tx s t) ∧
  (∀ (sid : ServerId) (slot fn : Byte), decode (0x11#8 ++ (fn ++ slot ++ sid)) = .ok (.txHdr sid slot fn)) ∧
  (∀ arg : Arg, ∃ sid slot fn, decode (0x11#8 ++ arg) = .ok (.txHdr sid slot fn))

/-- 41_encoder.md R113: `TX.PUT b` stores one byte at index `TXLEN` if it and the two checksum bytes fit, and answers
`OVERFLOW` with nothing changed if they do not. -/
def Obligations.TxPutAppendsOneByte : Prop :=
  (∀ (b : Byte) (s : State), s.cfg.Valid → s.txlen.toNat + 3 ≤ s.cfg.cap → ∃ t, exec (.txPut b) s = .next t ∧
    Memory.read t.txb s.txlen.toNat = some b ∧ SameBytesOutside .tx s.txlen.toNat 1 s t ∧
    t.txlen.toNat = s.txlen.toNat + 1 ∧ t.rsp = some { status := .ok, data := t.txlen.setWidth 64 } ∧
    OnlyBufferChanges .tx s t) ∧
  (∀ (b : Byte) (s : State), s.cfg.cap < s.txlen.toNat + 3 → exec (.txPut b) s = .next (s.answer .overflow 0#64)) ∧
  (∀ b : Byte, decode (0x12#8 ++ b.setWidth 48) = .ok (.txPut b)) ∧ RefusesReservedBits 0x12#8 .byte

/-- 41_encoder.md R115: `TX.SEAL` appends `crc16(TXB[0..TXLEN))`, low byte at index `TXLEN` and high byte after it,
and answers `OVERFLOW` with nothing changed where the two bytes do not fit. -/
def Obligations.TxSealAppendsChecksum : Prop :=
  (∀ (bs : List Byte) (s : State), s.cfg.Valid → Holds s .tx bs → bs.length + 2 ≤ s.cfg.cap →
    ∃ t, exec .txSeal s = .next t ∧
      Memory.read t.txb s.txlen.toNat = some ((crc16 bs).extractLsb' 0 8) ∧
      Memory.read t.txb (s.txlen.toNat + 1) = some ((crc16 bs).extractLsb' 8 8) ∧
      SameBytesOutside .tx s.txlen.toNat 2 s t ∧ t.txlen.toNat = s.txlen.toNat + 2 ∧
      t.rsp = some { status := .ok, data := t.txlen.setWidth 64 } ∧ OnlyBufferChanges .tx s t) ∧
  (∀ s : State, s.cfg.cap < s.txlen.toNat + 2 → exec .txSeal s = .next (s.answer .overflow 0#64)) ∧
  decode (0x13#8 ++ 0#48) = .ok .txSeal ∧ RefusesReservedBits 0x13#8 .none

/-- 41_encoder.md R117: `TX.RD i` answers `TXB[i]` for an index below `TXLEN` and `OVERFLOW` for any other, and
changes no state. -/
def Obligations.TxRdReadsValidByte : Prop :=
  (∀ (i : Half) (s : State), BufferInv s .tx → i.toNat < s.txlen.toNat →
    ∃ v, Memory.read s.txb i.toNat = some v ∧ exec (.txRd i) s = .next (s.answer .ok (v.setWidth 64))) ∧
  (∀ (i : Half) (s : State), s.txlen.toNat ≤ i.toNat → exec (.txRd i) s = .next (s.answer .overflow 0#64)) ∧
  (∀ i : Half, decode (0x14#8 ++ i.setWidth 48) = .ok (.txRd i)) ∧ RefusesReservedBits 0x14#8 .index

/-- 41_encoder.md R118. -/
def Obligations.TxLenReadsLength : Prop :=
  (∀ s : State, exec .txLen s = .next (s.answer .ok (s.txlen.setWidth 64))) ∧
  decode (0x15#8 ++ 0#48) = .ok .txLen ∧ RefusesReservedBits 0x15#8 .none

/-! ### The frame decoder -/

/-- 42_decoder.md R131: `RXLEN` becomes 0 and the bytes of `RXB` keep their values. -/
def Obligations.RxClrEmptiesReceiveBuffer : Prop :=
  (∀ s : State, exec .rxClr s = .next ({ s with rxlen := 0#16 }.answer .ok 0#64)) ∧
  decode (0x20#8 ++ 0#48) = .ok .rxClr ∧ RefusesReservedBits 0x20#8 .none

/-- 42_decoder.md R132: `RX.PUT b` stores one byte at index `RXLEN` while the buffer is not full, and answers
`OVERFLOW` with nothing changed when it is. -/
def Obligations.RxPutAppendsOneByte : Prop :=
  (∀ (b : Byte) (s : State), s.cfg.Valid → s.rxlen.toNat + 1 ≤ s.cfg.cap → ∃ t, exec (.rxPut b) s = .next t ∧
    Memory.read t.rxb s.rxlen.toNat = some b ∧ SameBytesOutside .rx s.rxlen.toNat 1 s t ∧
    t.rxlen.toNat = s.rxlen.toNat + 1 ∧ t.rsp = some { status := .ok, data := t.rxlen.setWidth 64 } ∧
    OnlyBufferChanges .rx s t) ∧
  (∀ (b : Byte) (s : State), s.cfg.cap < s.rxlen.toNat + 1 → exec (.rxPut b) s = .next (s.answer .overflow 0#64)) ∧
  (∀ b : Byte, decode (0x21#8 ++ b.setWidth 48) = .ok (.rxPut b)) ∧ RefusesReservedBits 0x21#8 .byte

/-- 42_decoder.md R133: `RX.CHK` answers 1 exactly when the buffer holds at least two bytes and the last two are the
checksum of the bytes before them, low byte first, and 0 otherwise; never an error status, and no state changes. -/
def Obligations.RxChkGivesVerdict : Prop :=
  (∀ (f : List Byte) (s : State), Holds s .rx f →
    (trailerVerifies f → exec .rxChk s = .next (s.answer .ok 1#64)) ∧
    (¬ trailerVerifies f → exec .rxChk s = .next (s.answer .ok 0#64))) ∧
  decode (0x22#8 ++ 0#48) = .ok .rxChk ∧ RefusesReservedBits 0x22#8 .none

/-- 42_decoder.md R134, R135: `RX.DEC` judges the length first, then the trailer, then answers the header fields and
the payload length; no state changes in any case. -/
def Obligations.RxDecChecksAndParses : Prop :=
  (∀ (f : List Byte) (s : State), Holds s .rx f →
    (f.length < 8 → exec .rxDec s = .next (s.answer .fault 0#64)) ∧
    (8 ≤ f.length → ¬ trailerVerifies f → exec .rxDec s = .next (s.answer .checksumError 0#64)) ∧
    (8 ≤ f.length → trailerVerifies f → ∃ d, exec .rxDec s = .next (s.answer .ok d) ∧ ParsesHeader d f)) ∧
  decode (0x23#8 ++ 0#48) = .ok .rxDec ∧ RefusesReservedBits 0x23#8 .none

/-- 42_decoder.md R137: `RX.RD i` answers `RXB[i]` for an index below `RXLEN` and `OVERFLOW` for any other, and
changes no state. -/
def Obligations.RxRdReadsValidByte : Prop :=
  (∀ (i : Half) (s : State), BufferInv s .rx → i.toNat < s.rxlen.toNat →
    ∃ v, Memory.read s.rxb i.toNat = some v ∧ exec (.rxRd i) s = .next (s.answer .ok (v.setWidth 64))) ∧
  (∀ (i : Half) (s : State), s.rxlen.toNat ≤ i.toNat → exec (.rxRd i) s = .next (s.answer .overflow 0#64)) ∧
  (∀ i : Half, decode (0x24#8 ++ i.setWidth 48) = .ok (.rxRd i)) ∧ RefusesReservedBits 0x24#8 .index

/-- 42_decoder.md R138. -/
def Obligations.RxLenReadsLength : Prop :=
  (∀ s : State, exec .rxLen s = .next (s.answer .ok (s.rxlen.setWidth 64))) ∧
  decode (0x25#8 ++ 0#48) = .ok .rxLen ∧ RefusesReservedBits 0x25#8 .none

/-! ### Rules over all commands -/

/-- 60_exceptions.md R174: a command that responds with any status other than `OK` leaves everything as it was and
returns data 0. -/
def Obligations.ErrorsChangeNothing : Prop :=
  ∀ (w : CommandWord) (s t : State) (r : Response), runWord w s = .next t → t.rsp = some r → r.status ≠ .ok →
    t = s.answer r.status 0#64

/-- 60_exceptions.md R172, R173: every way a command can respond with a status other than `OK`; the word is judged
first, the length before the checksum, and such a response has data 0 and no register or buffer is written. -/
def Obligations.StatusesHaveTheirCauses : Prop :=
  (∀ (i : Instr) (s : State), Inv s → ∃ t r, exec i s = .next t ∧ t.rsp = some r ∧ r.status ≠ .illegal ∧
    (r.status = .overflow ↔
      (∃ b, i = .txPut b ∧ s.txlen.toNat + 3 > s.cfg.cap) ∨ (i = .txSeal ∧ s.txlen.toNat + 2 > s.cfg.cap) ∨
      (∃ k, i = .txRd k ∧ k.toNat ≥ s.txlen.toNat) ∨ (∃ b, i = .rxPut b ∧ s.rxlen.toNat + 1 > s.cfg.cap) ∨
      (∃ k, i = .rxRd k ∧ k.toNat ≥ s.rxlen.toNat)) ∧
    (r.status = .fault ↔ i = .rxDec ∧ s.rxlen.toNat < 8) ∧
    (r.status = .checksumError ↔
      i = .rxDec ∧ 8 ≤ s.rxlen.toNat ∧ ∃ f, Holds s .rx f ∧ ¬ trailerVerifies f)) ∧
  (∀ (w : CommandWord) (s : State), Inv s → ∃ t r, runWord w s = .next t ∧ t.rsp = some r ∧
    (r.status = .illegal ↔ w.wellFormed = false) ∧ (r.status ≠ .ok → t = s.answer r.status 0#64))

/-- 10_state.md R21 to R24, R27, R28, 41_encoder.md R119, 70_reset_and_hazards.md R195, R196: each register and each
buffer is written only by its own commands, and no command changes the parameters or what the environment presents. -/
def Obligations.OnlyOwnCommandsWrite : Prop :=
  ∀ (i : Instr) (s t : State), exec i s = .next t →
    t.cfg = s.cfg ∧ t.inputs = s.inputs ∧
    (writesCrc i = false → t.crc = s.crc) ∧
    (writesTransmit i = false → SameBuffer .tx s t) ∧
    (writesReceive i = false → SameBuffer .rx s t)

/-- 20_memory.md R46: a command that writes no register and no buffer changes no state and answers the same again;
`CRC.INIT`, `TX.CLR`, `RX.CLR` and `TX.HDR` are idempotent. -/
def Obligations.ReadsRepeatAndSettersAreIdempotent : Prop :=
  (∀ (i : Instr) (s t : State),
    writesCrc i = false → writesTransmit i = false → writesReceive i = false → exec i s = .next t →
      t = { s with rsp := t.rsp } ∧ exec i t = .next t) ∧
  (∀ (i : Instr) (s t : State), Inv s → setsWhatever i = true → exec i s = .next t → exec i t = .next t)

/-- 10_state.md R30, 70_reset_and_hazards.md R191: the response of every command is a function of the command, the
registers and the valid bytes, and states that agree on these stay so; no command can learn a byte at or above a
length. -/
def Obligations.StaleBytesAreNeverObserved : Prop :=
  ∀ (i : Instr) (s s' t : State), Inv s → Inv s' → Alike s s' → exec i s = .next t →
    ∃ t', exec i s' = .next t' ∧ t'.rsp = t.rsp ∧ Alike t t'

/-- 42_decoder.md R140: the responses of `RX.CHK` and `RX.DEC` depend only on `RXB[0..RXLEN)`, not on `TXB`, `TXLEN`
or `CRC`, nor on the capacity or the function codes. -/
def Obligations.VerdictsDependOnReceivedBytesOnly : Prop :=
  ∀ (f : List Byte) (s s' : State), Holds s .rx f → Holds s' .rx f →
    ∀ i, i = .rxChk ∨ i = .rxDec → ∃ st d, exec i s = .next (s.answer st d) ∧ exec i s' = .next (s'.answer st d)

/-! ### The checksum -/

/-- 40_crc.md R92: the bit-serial form, bit 0 of the byte first, is the byte step of R90; and the register equations
of R92. -/
def Obligations.BitSerialFormIsCrcStep : Prop :=
  (∀ (c : BitVec 16) (b : Byte), crcStepSerial c b = crcStep c b) ∧
  (∀ (c : BitVec 16) (d : Bool) (k : Nat), k < 16 → (crcBit c d).getLsbD k =
    (if k = 15 then c.getLsbD 0 ^^ d
     else if k = 13 ∨ k = 0 then c.getLsbD (k + 1) ^^ (c.getLsbD 0 ^^ d)
     else c.getLsbD (k + 1)))

/-- 40_crc.md R93 (a): the checksum of a sequence followed by its own trailer is 0, and only the right trailer gives
0. -/
def Obligations.ChecksumResidueIsZero : Prop :=
  ∀ (bs : List Byte) (lo hi : Byte),
    crc16 (bs ++ [lo, hi]) = 0#16 ↔ lo = (crc16 bs).extractLsb' 0 8 ∧ hi = (crc16 bs).extractLsb' 8 8

/-- 40_crc.md R93 (b): for a fixed byte the step is one-to-one in the register, and for a fixed register one-to-one in
the byte. -/
def Obligations.CrcStepIsInjective : Prop :=
  (∀ (b : Byte) (c c' : BitVec 16), crcStep c b = crcStep c' b → c = c') ∧
  (∀ (c : BitVec 16) (b b' : Byte), crcStep c b = crcStep c b' → b = b')

/-- 40_crc.md R93 (c). -/
def Obligations.CrcStepIsLinear : Prop :=
  (∀ (c c' : BitVec 16) (b b' : Byte), crcStep (c ^^^ c') (b ^^^ b') = crcStep c b ^^^ crcStep c' b') ∧
  (∀ (c : BitVec 16) (b : Byte), crcStep c b = crcStep (c ^^^ b.setWidth 16) 0#8)

/-- 40_crc.md R93 (d): two sequences of equal length that differ in exactly one bit have different checksums. -/
def Obligations.OneBitChangesChecksum : Prop :=
  ∀ f g : List Byte, DifferInOneBit f g → crc16 f ≠ crc16 g

/-- 40_crc.md R93 (e), and R91 of the empty sequence. -/
def Obligations.ChecksumIsIncremental : Prop :=
  (∀ xs ys : List Byte, crc16 (xs ++ ys) = ys.foldl crcStep (crc16 xs)) ∧ crc16 [] = 0xFFFF#16

/-- 40_crc.md R95: the fixed points of the step with a zero byte are 0x0000 and 0xC001 only. -/
def Obligations.ZeroByteFixedPoints : Prop :=
  ∀ c : BitVec 16, crcStep c 0x00#8 = c ↔ c = 0x0000#16 ∨ c = 0xC001#16

/-! ### The pseudo-operations and the frame laws -/

/-- 41_encoder.md R114: after `TX.HDR` a run of `n` `TX.PUT` commands all respond `OK` if and only if `6 + n + 2` is
at most CAP, the first `CAP - 8` of a longer run do, and room for the checksum always remains. -/
def Obligations.CapacityLaw : Prop :=
  ∀ (sid : ServerId) (slot fn : Byte) (p : List Byte) (s : State), s.cfg.Valid →
    ∃ t, issueAll (.txHdr sid slot fn :: p.map .txPut) s = .next t ∧
      (t.respondedOk = true ↔ 6 + p.length + 2 ≤ s.cfg.cap) ∧
      t.txlen.toNat = 6 + min p.length (s.cfg.cap - 8) ∧ t.txlen.toNat + 2 ≤ s.cfg.cap ∧
      (¬ t.respondedOk = true → ∀ b, exec (.txPut b) t = .next (t.answer .overflow 0#64))

/-- 43_frame_laws.md R150: `CRC16 bs` from any state; CAP does not limit the length. -/
def Obligations.Crc16ComputesChecksum : Prop :=
  ∀ (bs : List Byte) (s : State),
    issueAll (crc16Ops bs) s = .next ({ s with crc := crc16 bs }.answer .ok ((crc16 bs).setWidth 64))

/-- 43_frame_laws.md R151 (a): `ENCODE` of a payload that fits leaves the whole frame in `TXB`, well formed, and
nothing else changed. -/
def Obligations.EncodeBuildsFrame : Prop :=
  ∀ (sid : ServerId) (slot fn : Byte) (p : List Byte) (s : State), s.cfg.Valid → p.length + 8 ≤ s.cfg.cap →
    ∃ t, issueAll (encodeOps sid slot fn p) s = .next t ∧
      t.rsp = some { status := .ok, data := BitVec.ofNat 64 (p.length + 8) } ∧
      Holds t .tx (le32Put sid ++ [slot, fn] ++ p ++ le16Put (crc16 (le32Put sid ++ [slot, fn] ++ p))) ∧
      WellFormedFrame s.cfg.cap (frame sid slot fn p) ∧
      SameBytesOutside .tx 0 (p.length + 8) s t ∧ OnlyBufferChanges .tx s t

/-- 43_frame_laws.md R151 (b), R156: `ENCODE` of a payload that does not fit stops with `OVERFLOW`, leaving the header
and the first `CAP - 8` payload bytes unsealed. -/
def Obligations.EncodeStopsAtOverflow : Prop :=
  ∀ (sid : ServerId) (slot fn : Byte) (p : List Byte) (s : State), s.cfg.Valid → s.cfg.cap < p.length + 8 →
    ∃ t, issueAll (encodeOps sid slot fn p) s = .next t ∧
      t.rsp = some { status := .overflow, data := 0#64 } ∧
      Holds t .tx (le32Put sid ++ [slot, fn] ++ p.take (s.cfg.cap - 8)) ∧ t.txlen.toNat = s.cfg.cap - 2 ∧
      OnlyBufferChanges .tx s t

/-- 43_frame_laws.md R152: the four results of `DECODE`. -/
def Obligations.DecodeJudgesFrame : Prop :=
  ∀ (f : List Byte) (s : State), s.cfg.Valid → ∃ t r, issueAll (decodeOps f) s = .next t ∧ t.rsp = some r ∧
    OnlyBufferChanges .rx s t ∧
    (s.cfg.cap < f.length → r = { status := .overflow, data := 0#64 }) ∧
    (f.length ≤ s.cfg.cap → Holds t .rx f ∧
      (f.length < 8 → r = { status := .fault, data := 0#64 }) ∧
      (8 ≤ f.length → ¬ trailerVerifies f → r = { status := .checksumError, data := 0#64 }) ∧
      (8 ≤ f.length → trailerVerifies f → r.status = .ok ∧ ParsesHeader r.data f))

/-- 43_frame_laws.md R153, first half. -/
def Obligations.AppendCrcSealsBytes : Prop :=
  ∀ (bs : List Byte) (s : State), s.cfg.Valid → ∃ t r, issueAll (appendCrcOps bs) s = .next t ∧ t.rsp = some r ∧
    (bs.length ≤ s.cfg.cap - 2 → r = { status := .ok, data := BitVec.ofNat 64 (bs.length + 2) } ∧
      Holds t .tx (bs ++ le16Put (crc16 bs))) ∧
    (s.cfg.cap - 2 < bs.length → r = { status := .overflow, data := 0#64 }) ∧
    OnlyBufferChanges .tx s t

/-- 43_frame_laws.md R153, second half. -/
def Obligations.VerifyGivesVerdict : Prop :=
  ∀ (f : List Byte) (s : State), s.cfg.Valid → ∃ t r, issueAll (verifyOps f) s = .next t ∧ t.rsp = some r ∧
    (f.length ≤ s.cfg.cap → trailerVerifies f → r = { status := .ok, data := 1#64 }) ∧
    (f.length ≤ s.cfg.cap → ¬ trailerVerifies f → r = { status := .ok, data := 0#64 }) ∧
    (s.cfg.cap < f.length → r = { status := .overflow, data := 0#64 }) ∧
    OnlyBufferChanges .rx s t

/-- 43_frame_laws.md R154: what `APPENDCRC` leaves verifies, and every sequence that differs from it in exactly one
bit does not, for every length from 0. -/
def Obligations.RoundTripAndSingleBitSensitivity : Prop :=
  ∀ (bs : List Byte) (s u : State), s.cfg.Valid → u.cfg = s.cfg → bs.length ≤ s.cfg.cap - 2 →
    ∃ t g, issueAll (appendCrcOps bs) s = .next t ∧ Holds t .tx g ∧
      (∃ v, issueAll (verifyOps g) u = .next v ∧ v.rsp = some { status := .ok, data := 1#64 }) ∧
      ∀ g', DifferInOneBit g g' →
        ∃ v, issueAll (verifyOps g') u = .next v ∧ v.rsp = some { status := .ok, data := 0#64 }

/-- 43_frame_laws.md R155: what `ENCODE` leaves in one block, `DECODE` in another block of the same capacity gives
back: identifier, slot id, function, payload length and every payload byte. -/
def Obligations.EncodeThenDecodeIsIdentity : Prop :=
  ∀ (sid : ServerId) (slot fn : Byte) (p : List Byte) (s u : State), s.cfg.Valid → u.cfg = s.cfg →
    p.length + 8 ≤ s.cfg.cap →
    ∃ t g v d, issueAll (encodeOps sid slot fn p) s = .next t ∧ Holds t .tx g ∧
      issueAll (decodeOps g) u = .next v ∧ v.rsp = some { status := .ok, data := d } ∧
      d.extractLsb' 0 32 = sid ∧ d.extractLsb' 32 8 = slot ∧ d.extractLsb' 40 8 = fn ∧
      (d.extractLsb' 48 16).toNat = p.length ∧
      ∀ j, j < p.length → Memory.read v.rxb (6 + j) = p[j]?

/-- 43_frame_laws.md R157, 30_encoding.md R66: `DECODE f` ends `OK` if and only if `f` is a well-formed frame; a frame
damaged in one bit never does. -/
def Obligations.DecodeAcceptsExactlyWellFormedFrames : Prop :=
  (∀ (f : List Byte) (s : State), s.cfg.Valid → f.length ≤ s.cfg.cap →
    ∃ t, issueAll (decodeOps f) s = .next t ∧ (t.respondedOk = true ↔ WellFormedFrame s.cfg.cap f)) ∧
  (∀ (cap : Nat) (f g : List Byte), WellFormedFrame cap f → DifferInOneBit f g → ¬ WellFormedFrame cap g)

/-- 30_encoding.md R67, 42_decoder.md R136 (a), (b) (decisions D15, D16 of the spec): a frame with an unknown function
byte, or a GetReq or SetResp frame with a payload, is no protocol-conforming frame, and the block still encodes it and
decodes it with status `OK`. -/
def Obligations.FunctionAndPayloadAreNotChecked : Prop :=
  ∀ (sid : ServerId) (slot fn : Byte) (p : List Byte) (s : State), s.cfg.Valid → p.length + 8 ≤ s.cfg.cap →
    (fnClass s.cfg fn = .unknown ∨ (p ≠ [] ∧ (fnClass s.cfg fn = .getReq ∨ fnClass s.cfg fn = .setResp))) →
    ¬ ProtocolFrame s.cfg (frame sid slot fn p) ∧
    (∃ t, issueAll (encodeOps sid slot fn p) s = .next t ∧ t.respondedOk = true) ∧
    (∃ t, issueAll (decodeOps (frame sid slot fn p)) s = .next t ∧ t.respondedOk = true)

/-! ### Codes and fields -/

/-- 60_exceptions.md R171: the five codes. -/
def Obligations.StatusCodesAreTheTables : Prop :=
  statusCode .ok = 0#3 ∧ statusCode .overflow = 1#3 ∧ statusCode .fault = 2#3 ∧
  statusCode .checksumError = 3#3 ∧ statusCode .illegal = 4#3 ∧ ∀ st, (statusCode st).toNat < 5

/-- 30_encoding.md R65: each of the four parameters classifies to its own function and every other byte is
`UNKNOWN`. -/
def Obligations.FunctionBytesAreClassified : Prop :=
  ∀ (c : Config) (f : Byte), c.Valid →
    (fnClass c f = .getReq ↔ f = c.fnGetReq) ∧ (fnClass c f = .setReq ↔ f = c.fnSetReq) ∧
    (fnClass c f = .getResp ↔ f = c.fnGetResp) ∧ (fnClass c f = .setResp ↔ f = c.fnSetResp) ∧
    (fnClass c f = .unknown ↔ f ∉ c.functionCodes)

/-- 00_scope.md R12, 20_memory.md R41, R42: the byte at offset `k` is bits `8k+7` to `8k`, and reading back what was
put gives the value. -/
def Obligations.FieldsAreLittleEndian : Prop :=
  (∀ (v : BitVec 32) (k : Nat), k < 4 → (le32Put v)[k]? = some (v.extractLsb' (8 * k) 8)) ∧
  (∀ (v : BitVec 16) (k : Nat), k < 2 → (le16Put v)[k]? = some (v.extractLsb' (8 * k) 8)) ∧
  (∀ b0 b1 b2 b3 : Byte, le32Put (le32Get b0 b1 b2 b3) = [b0, b1, b2, b3]) ∧
  (∀ b0 b1 : Byte, le16Put (le16Get b0 b1) = [b0, b1])
end

