-- ==== Sys2Proof/Laws/State.lean ====
section
/-! SUPPORT. One lemma for each field of a state under each named update, so that no proof unfolds a record update. -/

namespace Sys2Proof.Machine

variable (s : State) (m : Memory) (n : Half) (b b' : BufferId) (st : Status) (d : Data) (w : CommandWord)

@[simp] theorem State.buf_tx : s.buf .tx = s.txb := rfl
@[simp] theorem State.buf_rx : s.buf .rx = s.rxb := rfl
@[simp] theorem State.len_tx : s.len .tx = s.txlen := rfl
@[simp] theorem State.len_rx : s.len .rx = s.rxlen := rfl

@[simp] theorem State.answer_cfg : (s.answer st d).cfg = s.cfg := rfl
@[simp] theorem State.answer_crc : (s.answer st d).crc = s.crc := rfl
@[simp] theorem State.answer_txlen : (s.answer st d).txlen = s.txlen := rfl
@[simp] theorem State.answer_rxlen : (s.answer st d).rxlen = s.rxlen := rfl
@[simp] theorem State.answer_txb : (s.answer st d).txb = s.txb := rfl
@[simp] theorem State.answer_rxb : (s.answer st d).rxb = s.rxb := rfl
@[simp] theorem State.answer_inputs : (s.answer st d).inputs = s.inputs := rfl
@[simp] theorem State.answer_rsp : (s.answer st d).rsp = some ⟨st, d⟩ := rfl
@[simp] theorem State.answer_buf : (s.answer st d).buf b = s.buf b := by cases b <;> rfl
@[simp] theorem State.answer_len : (s.answer st d).len b = s.len b := by cases b <;> rfl

@[simp] theorem State.setLen_cfg : (s.setLen n b).cfg = s.cfg := by cases b <;> rfl
@[simp] theorem State.setLen_crc : (s.setLen n b).crc = s.crc := by cases b <;> rfl
@[simp] theorem State.setLen_txb : (s.setLen n b).txb = s.txb := by cases b <;> rfl
@[simp] theorem State.setLen_rxb : (s.setLen n b).rxb = s.rxb := by cases b <;> rfl
@[simp] theorem State.setLen_inputs : (s.setLen n b).inputs = s.inputs := by cases b <;> rfl
@[simp] theorem State.setLen_rsp : (s.setLen n b).rsp = s.rsp := by cases b <;> rfl
@[simp] theorem State.setLen_buf : (s.setLen n b).buf b' = s.buf b' := by cases b <;> cases b' <;> rfl
@[simp] theorem State.setLen_tx_txlen : (s.setLen n .tx).txlen = n := rfl
@[simp] theorem State.setLen_tx_rxlen : (s.setLen n .tx).rxlen = s.rxlen := rfl
@[simp] theorem State.setLen_rx_txlen : (s.setLen n .rx).txlen = s.txlen := rfl
@[simp] theorem State.setLen_rx_rxlen : (s.setLen n .rx).rxlen = n := rfl
@[simp] theorem State.setLen_len_same : (s.setLen n b).len b = n := by cases b <;> rfl

@[simp] theorem State.setBuf_cfg : (s.setBuf m b).cfg = s.cfg := by cases b <;> rfl
@[simp] theorem State.setBuf_crc : (s.setBuf m b).crc = s.crc := by cases b <;> rfl
@[simp] theorem State.setBuf_txlen : (s.setBuf m b).txlen = s.txlen := by cases b <;> rfl
@[simp] theorem State.setBuf_rxlen : (s.setBuf m b).rxlen = s.rxlen := by cases b <;> rfl
@[simp] theorem State.setBuf_inputs : (s.setBuf m b).inputs = s.inputs := by cases b <;> rfl
@[simp] theorem State.setBuf_rsp : (s.setBuf m b).rsp = s.rsp := by cases b <;> rfl
@[simp] theorem State.setBuf_len : (s.setBuf m b).len b' = s.len b' := by cases b <;> cases b' <;> rfl
@[simp] theorem State.setBuf_tx_txb : (s.setBuf m .tx).txb = m := rfl
@[simp] theorem State.setBuf_tx_rxb : (s.setBuf m .tx).rxb = s.rxb := rfl
@[simp] theorem State.setBuf_rx_txb : (s.setBuf m .rx).txb = s.txb := rfl
@[simp] theorem State.setBuf_rx_rxb : (s.setBuf m .rx).rxb = m := rfl
@[simp] theorem State.setBuf_buf_same : (s.setBuf m b).buf b = m := by cases b <;> rfl
@[simp] theorem State.setBuf_self : s.setBuf (s.buf b) b = s := by cases b <;> rfl
@[simp] theorem State.setBuf_setBuf (m' : Memory) : (s.setBuf m b).setBuf m' b = s.setBuf m' b := by
  cases b <;> rfl

/-- The two buffers are separate spaces (20_memory.md R40). -/
theorem State.setBuf_buf_other (h : b' ≠ b) : (s.setBuf m b).buf b' = s.buf b' := by
  cases b <;> cases b' <;> first | rfl | exact absurd rfl h

/-- The two length registers are separate. -/
theorem State.setLen_len_other (h : b' ≠ b) : (s.setLen n b).len b' = s.len b' := by
  cases b <;> cases b' <;> first | rfl | exact absurd rfl h

@[simp] theorem takeResponse_rsp : (takeResponse s).rsp = none := rfl
@[simp] theorem takeResponse_buf : (takeResponse s).buf b = s.buf b := by cases b <;> rfl
@[simp] theorem takeResponse_len : (takeResponse s).len b = s.len b := by cases b <;> rfl
@[simp] theorem takeResponse_cfg : (takeResponse s).cfg = s.cfg := rfl
@[simp] theorem takeResponse_crc : (takeResponse s).crc = s.crc := rfl
@[simp] theorem takeResponse_inputs : (takeResponse s).inputs = s.inputs := rfl

@[simp] theorem present_cfg : (present w s).cfg = s.cfg := rfl
@[simp] theorem present_crc : (present w s).crc = s.crc := rfl
@[simp] theorem present_buf : (present w s).buf b = s.buf b := by cases b <;> rfl
@[simp] theorem present_len : (present w s).len b = s.len b := by cases b <;> rfl
@[simp] theorem present_inputs : (present w s).inputs = .command w :: s.inputs := rfl
@[simp] theorem present_rsp : (present w s).rsp = none := rfl

@[simp] theorem resetWith_cfg (c : Config) : (State.resetWith c).cfg = c := rfl
@[simp] theorem resetWith_crc (c : Config) : (State.resetWith c).crc = 0xFFFF#16 := rfl
@[simp] theorem resetWith_len (c : Config) : (State.resetWith c).len b = 0#16 := by cases b <;> rfl
@[simp] theorem resetWith_buf (c : Config) : (State.resetWith c).buf b = [] := by cases b <;> rfl
@[simp] theorem resetWith_inputs (c : Config) : (State.resetWith c).inputs = [] := rfl
@[simp] theorem resetWith_rsp (c : Config) : (State.resetWith c).rsp = none := rfl

end Sys2Proof.Machine
end

