-- ==== Sys2Proof/Laws/Memory.lean ====
section
/-! SUPPORT. Reading after writing, and the canonical form of a buffer's list: what every later proof about buffers
cites instead of unfolding `Memory.read` and `Memory.write`. -/

namespace Sys2Proof.Machine

variable (m : Memory) (a b : Nat) (v : Byte)

@[simp] theorem Memory.read_nil : Memory.read [] a = none := rfl

theorem Memory.read_write_same : Memory.read (Memory.write m a v) a = some v := by
  induction m with
  | nil => simp [Memory.write, Memory.read]
  | cons cell rest ih =>
    obtain ⟨k, w⟩ := cell
    simp only [Memory.write]
    split
    · simp [Memory.read]
    · split
      · simp [Memory.read]
      · rename_i _ hne
        simp only [Memory.read, ih]
        rw [if_neg (fun h => hne h.symm)]

theorem Memory.read_write_other (h : b ≠ a) : Memory.read (Memory.write m a v) b = Memory.read m b := by
  induction m with
  | nil => simp [Memory.write, Memory.read, Ne.symm h]
  | cons cell rest ih =>
    obtain ⟨k, w⟩ := cell
    simp only [Memory.write]
    split
    · simp [Memory.read, Ne.symm h]
    · split
      · rename_i _ heq
        subst heq
        simp [Memory.read, Ne.symm h]
      · simp [Memory.read, ih]

theorem Memory.read_write :
    Memory.read (Memory.write m a v) b = if b = a then some v else Memory.read m b := by
  split
  · rename_i h; subst h; exact Memory.read_write_same m b v
  · rename_i h; exact Memory.read_write_other m a b v h

/-- Every cell of a written buffer is the written one or was there before. -/
theorem Memory.mem_write {cell : Host.Cell} (h : cell ∈ Memory.write m a v) : cell = (a, v) ∨ cell ∈ m := by
  induction m with
  | nil => simpa [Memory.write] using h
  | cons head rest ih =>
    obtain ⟨k, w⟩ := head
    simp only [Memory.write] at h
    split at h
    · simpa using h
    · split at h
      · simp only [List.mem_cons] at h ⊢
        tauto
      · simp only [List.mem_cons] at h ⊢
        rcases h with h | h
        · exact .inr (.inl h)
        · rcases ih h with h | h
          · exact .inl h
          · exact .inr (.inr h)

/-- A write keeps the canonical form. -/
theorem Memory.write_wf (h : Memory.wf m) : Memory.wf (Memory.write m a v) := by
  induction m with
  | nil => simp [Memory.write, Memory.wf]
  | cons head rest ih =>
    obtain ⟨k, w⟩ := head
    obtain ⟨hk, hr⟩ := List.pairwise_cons.mp h
    simp only [Memory.write]
    split
    · rename_i hlt
      refine List.pairwise_cons.mpr ⟨fun c hc => ?_, h⟩
      rcases List.mem_cons.mp hc with rfl | hc
      · exact hlt
      · exact Nat.lt_trans hlt (hk c hc)
    · split
      · rename_i _ heq
        subst heq
        exact List.pairwise_cons.mpr ⟨hk, hr⟩
      · rename_i hlt hne
        refine List.pairwise_cons.mpr ⟨fun c hc => ?_, ih hr⟩
        rcases Memory.mem_write rest a v hc with rfl | hc
        · exact Nat.lt_of_le_of_ne (Nat.le_of_not_lt hlt) (Ne.symm hne)
        · exact hk c hc

/-- What a written run of bytes reads as. -/
theorem Memory.read_writeBytes (vs : List Byte) :
    Memory.read (Memory.writeBytes m a vs) b =
      if a ≤ b ∧ b < a + vs.length then vs[b - a]? else Memory.read m b := by
  induction vs generalizing m a with
  | nil => simp only [Memory.writeBytes, List.length_nil]; rw [if_neg (by omega)]
  | cons v vs ih =>
    simp only [Memory.writeBytes, ih, Memory.read_write, List.length_cons]
    by_cases hb : b = a
    · subst hb
      rw [if_neg (by omega), if_pos rfl, if_pos (by omega)]
      simp
    · rw [if_neg hb]
      by_cases hin : a + 1 ≤ b ∧ b < a + 1 + vs.length
      · rw [if_pos hin, if_pos (by omega)]
        obtain ⟨j, rfl⟩ : ∃ j, b = a + 1 + j := ⟨b - (a + 1), by omega⟩
        have h1 : a + 1 + j - (a + 1) = j := by omega
        have h2 : a + 1 + j - a = j + 1 := by omega
        simp [h1, h2]
      · rw [if_neg hin, if_neg (by omega)]

/-- A run of writes keeps the canonical form. -/
theorem Memory.writeBytes_wf (vs : List Byte) (h : Memory.wf m) : Memory.wf (Memory.writeBytes m a vs) := by
  induction vs generalizing m a with
  | nil => exact h
  | cons v vs ih => exact ih _ _ (Memory.write_wf m a v h)

/-- A run of writes that ends at or below a bound keeps every index below it. -/
theorem Memory.writeBytes_inside (vs : List Byte) {bound : Nat} (hfit : a + vs.length ≤ bound)
    (h : ∀ cell ∈ m, cell.1 < bound) : ∀ cell ∈ Memory.writeBytes m a vs, cell.1 < bound := by
  induction vs generalizing m a with
  | nil => exact h
  | cons v vs ih =>
    rw [List.length_cons] at hfit
    refine ih _ _ (by omega) fun cell hc => ?_
    rcases Memory.mem_write m a v hc with rfl | hc
    · show a < bound
      omega
    · exact h cell hc

end Sys2Proof.Machine
end

