-- ==== Sys2Proof/Laws/Bytes.lean ====
section
/-! SUPPORT. The spec lemma of each buffer operation: `memRead`, `memWrite`, `readBytes`, `storeBytes`. -/

namespace Sys2Proof.Machine

/-- Everything a one-byte read can do. -/
theorem memRead_eq_ok_iff {s : State} {b : BufferId} {a : Nat} {v : Byte} :
    memRead s b a = .ok v ↔ a < s.cfg.cap ∧ Memory.read (s.buf b) a = some v := by
  unfold memRead
  split
  · rename_i h
    cases hr : Memory.read (s.buf b) a <;> simp [h]
  · rename_i h
    simp [h]

/-- A read depends on the capacity and on the byte read, and on nothing else. -/
theorem memRead_congr {s t : State} {b : BufferId} {a : Nat} (hc : t.cfg.cap = s.cfg.cap)
    (hr : Memory.read (t.buf b) a = Memory.read (s.buf b) a) : memRead t b a = memRead s b a := by
  simp [memRead, hc, hr]

/-- A run of reads depends on the capacity and on the bytes read, and on nothing else. -/
theorem readBytes_congr {s t : State} {b : BufferId} {a n : Nat} (hc : t.cfg.cap = s.cfg.cap)
    (hr : ∀ i, a ≤ i → i < a + n → Memory.read (t.buf b) i = Memory.read (s.buf b) i) :
    readBytes t b a n = readBytes s b a n := by
  induction n generalizing a with
  | zero => rfl
  | succ n ih =>
    simp only [readBytes, memRead_congr hc (hr a (Nat.le_refl a) (by omega))]
    rw [ih fun i h1 h2 => hr i (by omega) (by omega)]

/-- Everything a run of reads can answer: the bytes at the indices, in order. -/
theorem readBytes_eq_ok_iff {s : State} {b : BufferId} {a n : Nat} {bs : List Byte} :
    readBytes s b a n = .ok bs ↔
      bs.length = n ∧ ∀ i, i < n → a + i < s.cfg.cap ∧ Memory.read (s.buf b) (a + i) = bs[i]? := by
  induction n generalizing a bs with
  | zero =>
    simp only [readBytes, Except.ok.injEq]
    constructor
    · rintro rfl; simp
    · rintro ⟨h, -⟩; exact (List.eq_nil_of_length_eq_zero h).symm
  | succ n ih =>
    constructor
    · intro h
      simp only [readBytes] at h
      split at h
      · cases h
      · rename_i v hv
        split at h
        · cases h
        · rename_i vs hvs
          cases h
          obtain ⟨hl, hi⟩ := ih.mp hvs
          obtain ⟨hc, hr⟩ := memRead_eq_ok_iff.mp hv
          refine ⟨by simp [hl], fun i hin => ?_⟩
          cases i with
          | zero => exact ⟨hc, by simpa using hr⟩
          | succ i =>
            have := hi i (by omega)
            rw [show a + 1 + i = a + (i + 1) by omega] at this
            simpa using this
    · rintro ⟨hl, hi⟩
      cases bs with
      | nil => simp at hl
      | cons v vs =>
        have h0 := hi 0 (by omega)
        simp only [Nat.add_zero, List.getElem?_cons_zero] at h0
        have hvs : readBytes s b (a + 1) n = .ok vs := by
          refine ih.mpr ⟨by simpa using hl, fun i hin => ?_⟩
          have := hi (i + 1) (by omega)
          rw [show a + (i + 1) = a + 1 + i by omega] at this
          simpa using this
        simp only [readBytes, memRead_eq_ok_iff.mpr h0, hvs]

/-- A run of reads of bytes that all hold a value answers. -/
theorem readBytes_total {s : State} {b : BufferId} {a n : Nat} (hcap : a + n ≤ s.cfg.cap)
    (h : ∀ i, i < n → (Memory.read (s.buf b) (a + i)).isSome) : ∃ bs, readBytes s b a n = .ok bs := by
  induction n generalizing a with
  | zero => exact ⟨[], rfl⟩
  | succ n ih =>
    obtain ⟨v, hv⟩ := Option.isSome_iff_exists.mp (h 0 (by omega))
    obtain ⟨vs, hvs⟩ := ih (a := a + 1) (by omega) fun i hin => by
      have := h (i + 1) (by omega)
      rwa [show a + (i + 1) = a + 1 + i by omega] at this
    have hm : memRead s b a = .ok v := memRead_eq_ok_iff.mpr ⟨by omega, by simpa using hv⟩
    exact ⟨v :: vs, by simp only [readBytes, hm, hvs]⟩

/-- A run of stores that fits in the buffer replaces exactly those bytes. -/
theorem storeBytes_ok {s : State} {b : BufferId} {a : Nat} {vs : List Byte} (h : a + vs.length ≤ s.cfg.cap) :
    storeBytes b a vs s = .ok (s.setBuf (Memory.writeBytes (s.buf b) a vs) b) := by
  induction vs generalizing a s with
  | nil => simp [storeBytes, Memory.writeBytes]
  | cons v vs ih =>
    rw [List.length_cons] at h
    have hw : memWrite b a v s = .ok (s.setBuf (Memory.write (s.buf b) a v) b) := by
      simp [memWrite, show a < s.cfg.cap by omega]
    simp only [storeBytes, hw, Memory.writeBytes]
    rw [ih (by simpa using (by omega : a + 1 + vs.length ≤ s.cfg.cap))]
    simp

/-- Everything a run of stores can answer. -/
theorem storeBytes_eq_ok {s t : State} {b : BufferId} {a : Nat} {vs : List Byte}
    (h : storeBytes b a vs s = .ok t) : t = s.setBuf (Memory.writeBytes (s.buf b) a vs) b := by
  induction vs generalizing a s with
  | nil => cases h; simp [Memory.writeBytes]
  | cons v vs ih =>
    simp only [storeBytes] at h
    split at h
    · cases h
    · rename_i u hu
      unfold memWrite at hu
      split at hu
      · cases hu
        simpa [Memory.writeBytes] using ih h
      · cases hu

/-- A one-byte store keeps the canonical form of both buffers. -/
theorem memWrite_wf {s t : State} {b b' : BufferId} {a : Nat} {v : Byte} (h : memWrite b a v s = .ok t)
    (hw : Memory.wf (s.buf b')) : Memory.wf (t.buf b') := by
  unfold memWrite at h
  split at h
  · cases h
    by_cases hb : b' = b
    · subst hb
      rw [State.setBuf_buf_same]
      exact Memory.write_wf _ _ _ hw
    · rwa [State.setBuf_buf_other _ _ _ _ hb]
  · cases h

/-- A run of stores keeps the canonical form of both buffers. -/
theorem storeBytes_wf {s t : State} {b b' : BufferId} {a : Nat} {vs : List Byte}
    (h : storeBytes b a vs s = .ok t) (hw : Memory.wf (s.buf b')) : Memory.wf (t.buf b') := by
  rw [storeBytes_eq_ok h]
  by_cases hb : b' = b
  · subst hb
    rw [State.setBuf_buf_same]
    exact Memory.writeBytes_wf _ _ _ hw
  · rwa [State.setBuf_buf_other _ _ _ _ hb]

/-- The buffers of the reset state are in canonical form. -/
theorem resetWith_wf (c : Config) (b : BufferId) : Memory.wf ((State.resetWith c).buf b) := by
  rw [resetWith_buf]
  exact List.Pairwise.nil

@[simp] theorem orFault_ok {α : Type} (a : α) (k : α → Host.Outcome State Fault Refusal) :
    orFault (.ok a) k = k a := rfl

@[simp] theorem orFault_error {α : Type} (e : Fault) (k : α → Host.Outcome State Fault Refusal) :
    orFault (.error e) k = .fault e := rfl

end Sys2Proof.Machine
end

