-- ==== Sys2Proof/Laws/Commands.lean ====
section
/-! SUPPORT. The spec lemma of each operation that commands share: append, indexed read, the trailer verdict and the
header parse; and the buffers of states that hold given bytes. -/

namespace Sys2Proof.Machine

@[simp] theorem respond_eq (d : Data) (s : State) : respond d s = .next (s.answer .ok d) := rfl
@[simp] theorem raise_eq (st : Status) (s : State) : raise st s = .next (s.answer st 0#64) := rfl

@[simp] theorem lacksRoom_eq_true {s : State} {b : BufferId} {n : Nat} :
    lacksRoom s b n = true ↔ s.cfg.cap < (s.len b).toNat + n := by
  simp [lacksRoom]

@[simp] theorem beyondLength_eq_true {s : State} {b : BufferId} {i : Half} :
    beyondLength s b i = true ↔ (s.len b).toNat ≤ i.toNat := by
  simp [beyondLength]

@[simp] theorem receivedFewerThan_eq_true {s : State} {n : Nat} :
    receivedFewerThan s n = true ↔ s.rxlen.toNat < n := by
  simp [receivedFewerThan]

/-- The state after bytes are appended to a buffer and its new length is answered. -/
def appended (b : BufferId) (bs : List Byte) (s : State) : State :=
  let n : Half := BitVec.ofNat 16 ((s.len b).toNat + bs.length)
  ((s.setBuf (Memory.writeBytes (s.buf b) (s.len b).toNat bs) b).setLen n b).answer .ok (halfData n)

/-- An append that fits in the buffer completes. -/
theorem appendBytes_ok {s : State} {b : BufferId} {bs : List Byte}
    (h : (s.len b).toNat + bs.length ≤ s.cfg.cap) : appendBytes b bs s = .next (appended b bs s) := by
  simp only [appendBytes, storeBytes_ok h, orFault_ok, respond_eq, appended]

/-- Everything an append that completes can do. -/
theorem appendBytes_next {s t : State} {b : BufferId} {bs : List Byte} (h : appendBytes b bs s = .next t) :
    t = appended b bs s := by
  unfold appendBytes at h
  cases hs : storeBytes b (s.len b).toNat bs s with
  | error e => simp [hs] at h
  | ok u =>
    rw [storeBytes_eq_ok hs] at hs
    simp only [hs, orFault_ok, respond_eq, Host.Outcome.next.injEq] at h
    exact h.symm

@[simp] theorem appended_cfg (b : BufferId) (bs : List Byte) (s : State) : (appended b bs s).cfg = s.cfg := by
  simp [appended]

@[simp] theorem appended_crc (b : BufferId) (bs : List Byte) (s : State) : (appended b bs s).crc = s.crc := by
  simp [appended]

@[simp] theorem appended_inputs (b : BufferId) (bs : List Byte) (s : State) :
    (appended b bs s).inputs = s.inputs := by
  simp [appended]

@[simp] theorem appended_buf (b : BufferId) (bs : List Byte) (s : State) :
    (appended b bs s).buf b = Memory.writeBytes (s.buf b) (s.len b).toNat bs := by
  simp [appended]

@[simp] theorem appended_len (b : BufferId) (bs : List Byte) (s : State) :
    (appended b bs s).len b = BitVec.ofNat 16 ((s.len b).toNat + bs.length) := by
  simp [appended]

@[simp] theorem appended_rsp (b : BufferId) (bs : List Byte) (s : State) :
    (appended b bs s).rsp = some ⟨.ok, halfData (BitVec.ofNat 16 ((s.len b).toNat + bs.length))⟩ := by
  simp [appended]

/-- An append leaves the other buffer and its length alone. -/
theorem appended_other (b b' : BufferId) (bs : List Byte) (s : State) (h : b' ≠ b) :
    SameBuffer b' s (appended b bs s) := by
  constructor
  · simp [appended, State.setBuf_buf_other _ _ _ _ h]
  · simp [appended, State.setLen_len_other _ _ _ _ h]

theorem appended_onlyBufferChanges (b : BufferId) (bs : List Byte) (s : State) :
    OnlyBufferChanges b s (appended b bs s) :=
  ⟨appended_cfg b bs s, appended_crc b bs s, appended_inputs b bs s, fun b' h => appended_other b b' bs s h⟩

/-- A buffer holds a byte sequence exactly when its length is the sequence's and its bytes are, in order. -/
theorem holds_iff {s : State} {b : BufferId} {bs : List Byte} :
    Holds s b bs ↔ (s.len b).toNat = bs.length ∧
      ∀ i, i < bs.length → i < s.cfg.cap ∧ Memory.read (s.buf b) i = bs[i]? := by
  unfold Holds validBytes
  rw [readBytes_eq_ok_iff]
  constructor
  · rintro ⟨hl, -, hi⟩
    exact ⟨hl, fun i h => by simpa using hi i (by omega)⟩
  · rintro ⟨hl, hi⟩
    exact ⟨hl, hl.symm, fun i h => by simpa using hi i (by omega)⟩

/-- In a state that obeys the invariant each buffer holds some byte sequence. -/
theorem BufferInv.exists_holds {s : State} {b : BufferId} (h : BufferInv s b) : ∃ bs, Holds s b bs := by
  obtain ⟨bs, hbs⟩ := readBytes_total (s := s) (b := b) (a := 0) (n := (s.len b).toNat)
    (by simpa using h.len_le) (fun i hi => by simpa using h.written i hi)
  exact ⟨bs, (readBytes_eq_ok_iff.mp hbs).1.symm, hbs⟩

/-- An indexed read below the length answers the byte. -/
theorem readIndex_within {s : State} {b : BufferId} {i : Half} (h : BufferInv s b)
    (hi : i.toNat < (s.len b).toNat) :
    ∃ v, Memory.read (s.buf b) i.toNat = some v ∧ readIndex b i s = .next (s.answer .ok (byteData v)) := by
  obtain ⟨v, hv⟩ := Option.isSome_iff_exists.mp (h.written _ hi)
  have hc : i.toNat < s.cfg.cap := Nat.lt_of_lt_of_le hi h.len_le
  have hb : ¬ beyondLength s b i = true := by simpa using hi
  refine ⟨v, hv, ?_⟩
  rw [readIndex, if_neg hb, memRead_eq_ok_iff.mpr ⟨hc, hv⟩, orFault_ok, respond_eq]

/-- An indexed read at or above the length is refused. -/
theorem readIndex_beyond {s : State} {b : BufferId} {i : Half} (hi : (s.len b).toNat ≤ i.toNat) :
    readIndex b i s = .next (s.answer .overflow 0#64) := by
  have hb : beyondLength s b i = true := by simpa using hi
  rw [readIndex, if_pos hb, raise_eq]

/-- The trailer verdict over a buffer that holds a byte sequence of at least two bytes. -/
theorem trailerMatches_of_holds {s : State} {f : List Byte} (h : Holds s .rx f) (h2 : 2 ≤ f.length) :
    ∃ v, trailerMatches s = .ok v ∧ (v = true ↔ trailerVerifies f) := by
  obtain ⟨hl, hi⟩ := holds_iff.mp h
  simp only [State.len_rx, State.buf_rx] at hl hi
  have hbs : readBytes s .rx 0 (s.rxlen.toNat - 2) = .ok (f.take (f.length - 2)) := by
    refine readBytes_eq_ok_iff.mpr ⟨by simp [hl], fun i hlt => ?_⟩
    have := hi i (by omega)
    simp only [Nat.zero_add, State.buf_rx]
    rw [List.getElem?_take, if_pos (by omega)]
    exact this
  have hlo : memRead s .rx (s.rxlen.toNat - 2) = .ok f[f.length - 2] := by
    refine memRead_eq_ok_iff.mpr ?_
    have := hi (f.length - 2) (by omega)
    rw [hl]
    exact ⟨this.1, by rw [State.buf_rx, this.2]; exact List.getElem?_eq_getElem _⟩
  have hhi : memRead s .rx (s.rxlen.toNat - 1) = .ok f[f.length - 1] := by
    refine memRead_eq_ok_iff.mpr ?_
    have := hi (f.length - 1) (by omega)
    rw [hl]
    exact ⟨this.1, by rw [State.buf_rx, this.2]; exact List.getElem?_eq_getElem _⟩
  refine ⟨trailerIs (crc16 (f.take (f.length - 2))) f[f.length - 2] f[f.length - 1], ?_, ?_⟩
  · simp only [trailerMatches, hbs, hlo, hhi]
    rfl
  · have e1 : f[f.length - 2]? = some f[f.length - 2] := List.getElem?_eq_getElem _
    have e2 : f[f.length - 1]? = some f[f.length - 1] := List.getElem?_eq_getElem _
    simp only [trailerIs, trailerVerifies, e1, e2, Bool.and_eq_true, beq_iff_eq, Option.some.injEq]
    exact ⟨fun hv => ⟨h2, hv⟩, fun hv => hv.2⟩

/-- The header parse over a buffer that holds at least the six header bytes. -/
theorem parseHeader_of_holds {s : State} {b0 b1 b2 b3 slot fn : Byte} {rest : List Byte}
    (h : Holds s .rx (b0 :: b1 :: b2 :: b3 :: slot :: fn :: rest)) :
    parseHeader s = .ok (headerData (s.rxlen.toNat - minFrame) fn slot (le32Get b0 b1 b2 b3)) := by
  obtain ⟨-, hi⟩ := holds_iff.mp h
  have hm : ∀ i v, i < 6 → (b0 :: b1 :: b2 :: b3 :: slot :: fn :: rest)[i]? = some v → memRead s .rx i = .ok v := by
    intro i v h6 hv
    have := hi i (by simp only [List.length_cons]; omega)
    exact memRead_eq_ok_iff.mpr ⟨this.1, this.2.trans hv⟩
  simp only [parseHeader, hm 0 b0 (by omega) rfl, hm 1 b1 (by omega) rfl, hm 2 b2 (by omega) rfl,
    hm 3 b3 (by omega) rfl, hm 4 slot (by omega) rfl, hm 5 fn (by omega) rfl]
  rfl

end Sys2Proof.Machine
end

