-- ==== Sys2Proof/Laws/Decode.lean ====
section
/-! SUPPORT. Slices of concatenated fields, and what each operand form of the decoder does with an operand that was
built for it. -/

namespace Sys2Proof

theorem extract_append_high {n m : Nat} (x : BitVec n) (y : BitVec m) : (x ++ y).extractLsb' m n = x := by
  ext i hi
  simp [BitVec.getLsbD_append, BitVec.getLsbD_eq_getElem, hi]

theorem extract_append_low {n m : Nat} (x : BitVec n) (y : BitVec m) : (x ++ y).extractLsb' 0 m = y := by
  ext i hi
  simp [BitVec.getLsbD_append, hi, BitVec.getLsbD_eq_getElem]

theorem extract_append_above {n m : Nat} (x : BitVec n) (y : BitVec m) (a k : Nat) :
    (x ++ y).extractLsb' (m + a) k = x.extractLsb' a k := by
  ext i hi
  simp only [BitVec.getElem_extractLsb', BitVec.getLsbD_append]
  rw [if_neg (by omega)]
  congr 1
  omega

theorem extract_append_below {n m : Nat} (x : BitVec n) (y : BitVec m) (a k : Nat) (h : a + k ≤ m) :
    (x ++ y).extractLsb' a k = y.extractLsb' a k := by
  ext i hi
  simp only [BitVec.getElem_extractLsb', BitVec.getLsbD_append]
  rw [if_pos (by omega)]

theorem append_extract {n m : Nat} (w : BitVec (n + m)) : w.extractLsb' m n ++ w.extractLsb' 0 m = w := by
  ext i hi
  simp only [BitVec.getElem_append]
  split
  · simp [BitVec.getLsbD_eq_getElem, hi]
  · simp only [BitVec.getElem_extractLsb']
    rw [show m + (i - m) = i by omega]
    simp [BitVec.getLsbD_eq_getElem, hi]

/-- A slice whose high part is 0 is its low part with zeros above. -/
theorem setWidth_low_of_high_zero {n m : Nat} (w : BitVec (n + m)) (h : w.extractLsb' m n = 0#n) :
    (w.extractLsb' 0 m).setWidth (n + m) = w := by
  ext i hi
  by_cases him : i < m
  · simp [BitVec.getLsbD_eq_getElem, hi, him]
  · have hbit : (w.extractLsb' m n).getLsbD (i - m) = false := by simp [h]
    rw [BitVec.getLsbD_extractLsb', show m + (i - m) = i by omega, BitVec.getLsbD_eq_getElem hi] at hbit
    have : i - m < n := by omega
    simp_all

theorem extract_setWidth_low {n m : Nat} (x : BitVec m) : (x.setWidth (n + m)).extractLsb' 0 m = x := by
  ext i hi
  simp only [BitVec.getElem_extractLsb', BitVec.getLsbD_setWidth, Nat.zero_add, BitVec.getLsbD_eq_getElem hi]
  simp only [show i < n + m by omega, decide_true, Bool.true_and]

theorem extract_setWidth_high {n m : Nat} (x : BitVec m) : (x.setWidth (n + m)).extractLsb' m n = 0#n := by
  ext i hi
  simp [BitVec.getLsbD_of_ge]

/-- A mask of ones above `m` bits tests the high part of a word. -/
theorem and_high_mask_eq_zero {n m : Nat} (w : BitVec (n + m)) :
    w &&& (BitVec.allOnes n ++ 0#m) = 0#(n + m) ↔ w.extractLsb' m n = 0#n := by
  constructor
  · intro h
    ext i hi
    have := congrArg (fun v => BitVec.getLsbD v (m + i)) h
    simpa [BitVec.getLsbD_append, hi] using this
  · intro h
    ext i hi
    simp only [BitVec.getElem_and, BitVec.getElem_append]
    split
    · simp
    · have := congrArg (fun v => BitVec.getLsbD v (i - m)) h
      simp only [BitVec.getLsbD_extractLsb', show m + (i - m) = i by omega, show i - m < n by omega,
        decide_true, Bool.true_and] at this
      simp [← BitVec.getLsbD_eq_getElem, this]

/-- Form N reserves the whole operand (30_encoding.md R69). -/
theorem reserved_none_eq_zero (a : Arg) : a &&& Form.none.reservedBits = 0#48 ↔ a = 0#48 := by
  rw [show Form.none.reservedBits = BitVec.allOnes 48 by decide, BitVec.and_allOnes]

/-- Form B reserves `arg[47:8]` (30_encoding.md R69). -/
theorem reserved_byte_eq_zero (a : Arg) : a &&& Form.byte.reservedBits = 0#48 ↔ a.extractLsb' 8 40 = 0#40 := by
  rw [show Form.byte.reservedBits = BitVec.allOnes 40 ++ 0#8 by decide]
  exact and_high_mask_eq_zero (n := 40) (m := 8) a

/-- Form I reserves `arg[47:16]` (30_encoding.md R69). -/
theorem reserved_index_eq_zero (a : Arg) : a &&& Form.index.reservedBits = 0#48 ↔ a.extractLsb' 16 32 = 0#32 := by
  rw [show Form.index.reservedBits = BitVec.allOnes 32 ++ 0#16 by decide]
  exact and_high_mask_eq_zero (n := 32) (m := 16) a

/-- Form H reserves nothing (30_encoding.md R69). -/
theorem reserved_header_eq_zero (a : Arg) : a &&& Form.header.reservedBits = 0#48 := by
  simp [Form.reservedBits]

/-- Decoding looks at the opcode and the operand of a word and at nothing else. -/
theorem decode_append (op : Byte) (arg : Arg) : decode (op ++ arg) = decodeOp op arg := by
  have h1 : (op ++ arg : BitVec 56).extractLsb' 48 8 = op := extract_append_high op arg
  have h2 : (op ++ arg : BitVec 56).extractLsb' 0 48 = arg := extract_append_low op arg
  simp only [decode, h1, h2]

/-- Every word is its opcode followed by its operand (30_encoding.md R68). -/
theorem op_append_arg (w : CommandWord) : (w.op ++ w.arg : BitVec 56) = w :=
  append_extract (n := 8) (m := 48) w

@[simp] theorem op_of_append (op : Byte) (arg : Arg) : CommandWord.op (op ++ arg) = op :=
  extract_append_high op arg

@[simp] theorem arg_of_append (op : Byte) (arg : Arg) : CommandWord.arg (op ++ arg) = arg :=
  extract_append_low op arg

@[simp] theorem decodeNone_zero (op : Byte) (i : Instr) : decodeNone op 0#48 i = .ok i := rfl

@[simp] theorem decodeByte_setWidth (op b : Byte) (i : Byte → Instr) :
    decodeByte op (b.setWidth 48) i = .ok (i b) := by
  have h1 : (b.setWidth 48 : Arg).extractLsb' 8 40 = 0#40 := extract_setWidth_high (n := 40) b
  have h2 : (b.setWidth 48 : Arg).extractLsb' 0 8 = b := extract_setWidth_low (n := 40) b
  rw [decodeByte, if_pos h1, h2]

@[simp] theorem decodeIndex_setWidth (op : Byte) (k : Half) (i : Half → Instr) :
    decodeIndex op (k.setWidth 48) i = .ok (i k) := by
  have h1 : (k.setWidth 48 : Arg).extractLsb' 16 32 = 0#32 := extract_setWidth_high (n := 32) k
  have h2 : (k.setWidth 48 : Arg).extractLsb' 0 16 = k := extract_setWidth_low (n := 32) k
  rw [decodeIndex, if_pos h1, h2]

@[simp] theorem decodeHeader_append (sid : ServerId) (slot fn : Byte) (i : ServerId → Byte → Byte → Instr) :
    decodeHeader (fn ++ slot ++ sid) i = .ok (i sid slot fn) := by
  have h1 : (fn ++ slot ++ sid : Arg).extractLsb' 0 32 = sid := extract_append_low (fn ++ slot) sid
  have h2 : (fn ++ slot ++ sid : Arg).extractLsb' 32 8 = slot :=
    (extract_append_above (fn ++ slot) sid 0 8).trans (extract_append_low fn slot)
  have h3 : (fn ++ slot ++ sid : Arg).extractLsb' 40 8 = fn :=
    (extract_append_above (fn ++ slot) sid 8 8).trans (extract_append_high fn slot)
  rw [decodeHeader, h1, h2, h3]

end Sys2Proof
end

