-- ==== Sys2Proof/Laws/PerInstr.lean ====
section
/-! SUPPORT. Statements about every instruction as syntax, one lemma for each constructor: an encoded command is a
legal command word, by the opcode map and the reserved bits of WellFormed.lean (30_encoding.md R69 to R71). -/

namespace Sys2Proof.Laws.EncodesLegalWord

/-- The word a command encodes to has an assigned opcode and no reserved operand bit set. -/
def Statement (i : Instr) : Prop := CommandWord.wellFormed (encode i) = true

/-- A word is legal when its opcode's row is in the map, no other row has that opcode, and the row's form reserves no
bit of the operand that is 1. -/
theorem wellFormed_append {op : Byte} {arg : Arg} (r : OpcodeRow) (hr : r ∈ opcodeTable) (hop : r.opcode = op)
    (hone : ∀ r' ∈ opcodeTable, r'.opcode = op → r' = r) (hz : arg &&& r.form.reservedBits = 0#48) :
    CommandWord.wellFormed (op ++ arg) = true := by
  have h1 : CommandWord.opcodeAssigned (op ++ arg) = true := by
    rw [CommandWord.opcodeAssigned, op_of_append]
    exact List.any_eq_true.mpr ⟨r, hr, by simp [hop]⟩
  have h2 : CommandWord.reservedBitsZero (op ++ arg) = true := by
    rw [CommandWord.reservedBitsZero, op_of_append, arg_of_append]
    refine List.all_eq_true.mpr fun r' hr' => ?_
    by_cases h : r'.opcode = op
    · rw [hone r' hr' h, hz]
      simp
    · simp [h]
  rw [CommandWord.wellFormed, h1, h2]
  rfl

theorem byte_reserved (b : Byte) : (b.setWidth 48 : Arg) &&& Form.byte.reservedBits = 0#48 :=
  (reserved_byte_eq_zero _).mpr (extract_setWidth_high (n := 40) b)

theorem index_reserved (k : Half) : (k.setWidth 48 : Arg) &&& Form.index.reservedBits = 0#48 :=
  (reserved_index_eq_zero _).mpr (extract_setWidth_high (n := 32) k)

theorem crcInit : Statement .crcInit :=
  wellFormed_append (op := 0x01#8) ⟨0x01#8, "CRC.INIT", .none⟩ (by decide) rfl (by decide) (by decide)

theorem crcUpd (b : Byte) : Statement (.crcUpd b) :=
  wellFormed_append (op := 0x02#8) ⟨0x02#8, "CRC.UPD", .byte⟩ (by decide) rfl (by decide) (byte_reserved b)

theorem crcRd : Statement .crcRd :=
  wellFormed_append (op := 0x03#8) ⟨0x03#8, "CRC.RD", .none⟩ (by decide) rfl (by decide) (by decide)

theorem txClr : Statement .txClr :=
  wellFormed_append (op := 0x10#8) ⟨0x10#8, "TX.CLR", .none⟩ (by decide) rfl (by decide) (by decide)

theorem txHdr (sid : ServerId) (slot fn : Byte) : Statement (.txHdr sid slot fn) :=
  wellFormed_append (op := 0x11#8) ⟨0x11#8, "TX.HDR", .header⟩ (by decide) rfl (by decide)
    (reserved_header_eq_zero _)

theorem txPut (b : Byte) : Statement (.txPut b) :=
  wellFormed_append (op := 0x12#8) ⟨0x12#8, "TX.PUT", .byte⟩ (by decide) rfl (by decide) (byte_reserved b)

theorem txSeal : Statement .txSeal :=
  wellFormed_append (op := 0x13#8) ⟨0x13#8, "TX.SEAL", .none⟩ (by decide) rfl (by decide) (by decide)

theorem txRd (i : Half) : Statement (.txRd i) :=
  wellFormed_append (op := 0x14#8) ⟨0x14#8, "TX.RD", .index⟩ (by decide) rfl (by decide) (index_reserved i)

theorem txLen : Statement .txLen :=
  wellFormed_append (op := 0x15#8) ⟨0x15#8, "TX.LEN", .none⟩ (by decide) rfl (by decide) (by decide)

theorem rxClr : Statement .rxClr :=
  wellFormed_append (op := 0x20#8) ⟨0x20#8, "RX.CLR", .none⟩ (by decide) rfl (by decide) (by decide)

theorem rxPut (b : Byte) : Statement (.rxPut b) :=
  wellFormed_append (op := 0x21#8) ⟨0x21#8, "RX.PUT", .byte⟩ (by decide) rfl (by decide) (byte_reserved b)

theorem rxChk : Statement .rxChk :=
  wellFormed_append (op := 0x22#8) ⟨0x22#8, "RX.CHK", .none⟩ (by decide) rfl (by decide) (by decide)

theorem rxDec : Statement .rxDec :=
  wellFormed_append (op := 0x23#8) ⟨0x23#8, "RX.DEC", .none⟩ (by decide) rfl (by decide) (by decide)

theorem rxRd (i : Half) : Statement (.rxRd i) :=
  wellFormed_append (op := 0x24#8) ⟨0x24#8, "RX.RD", .index⟩ (by decide) rfl (by decide) (index_reserved i)

theorem rxLen : Statement .rxLen :=
  wellFormed_append (op := 0x25#8) ⟨0x25#8, "RX.LEN", .none⟩ (by decide) rfl (by decide) (by decide)

end Sys2Proof.Laws.EncodesLegalWord
end

