-- ==== Sys2Proof/Laws/Run.lean ====
section
/-! SUPPORT. Runs of the machine, one induction for every invariant, and a host issuing one command. -/

namespace Sys2Proof.Machine

theorem run_zero (s : State) : Sys2Proof.core.run 0 s = .next s := rfl

theorem run_succ {n : Nat} {s t : State} (h : step s = .next t) :
    Sys2Proof.core.run (n + 1) s = Sys2Proof.core.run n t := by
  have hc : Sys2Proof.core.step s = .next t := h
  simp only [Host.Core.run, hc]

/-- What every step answers and keeps, every run answers and keeps. -/
theorem run_keeps {P : State → Prop} (hstep : ∀ s, P s → ∃ t, step s = .next t ∧ P t) (n : Nat) :
    ∀ s, P s → ∃ t, Sys2Proof.core.run n s = .next t ∧ P t := by
  induction n with
  | zero => exact fun s h => ⟨s, rfl, h⟩
  | succ n ih =>
    intro s h
    obtain ⟨t, ht, hp⟩ := hstep s h
    obtain ⟨u, hu, hq⟩ := ih t hp
    exact ⟨u, (run_succ ht).trans hu, hq⟩

/-- A step with a command presented and no response pending takes the command's word. -/
theorem step_command {s : State} {w : CommandWord} {rest : List Input} (hi : s.inputs = .command w :: rest)
    (hr : s.rsp = none) : step s = runWord w { s with inputs := rest } := by
  simp [step, hi, hr]

/-- Issuing a command whose word decodes to it executes it, with no response pending. -/
theorem issue_eq_exec {i : Instr} (hd : decode (encode i) = .ok i) (s : State) :
    issue i s = exec i (takeResponse s) := by
  simp [issue, step, present, runWord, hd, takeResponse]

/-- A command that responds `OK` lets the sequence go on. -/
theorem issueAll_cons_ok {i : Instr} {rest : List Instr} {s t : State} (h : issue i s = .next t)
    (hr : t.respondedOk = true) : issueAll (i :: rest) s = issueAll rest t := by
  simp [issueAll, h, hr]

/-- A command that responds anything else ends the sequence (30_encoding.md R77). -/
theorem issueAll_cons_stop {i : Instr} {rest : List Instr} {s t : State} (h : issue i s = .next t)
    (hr : t.respondedOk = false) : issueAll (i :: rest) s = .next t := by
  simp [issueAll, h, hr]

end Sys2Proof.Machine
end

