-- ==== Sys2Proof/Tests/Slice0.lean ====
section
/-! SUPPORT. Tests. Every expected value is transcribed from spec/95_test_vectors.md (V10 to V50, the programs P1 to
P6) or written out from the encodings of spec/30_encoding.md, never from the model. The last part gives, for each
statement with hypotheses, a concrete state and operands that meet them. -/

namespace Sys2Proof.Tests

open Sys2Proof.Machine

/-! ### Helpers -/

/-- A block of a given capacity whose buffers hold the given bytes and nothing else. -/
def block (cap : Nat) (tx rx : List Byte) : State :=
  { State.resetWith { Config.vectors with cap := cap } with
    txlen := BitVec.ofNat 16 tx.length, txb := Memory.writeBytes [] 0 tx,
    rxlen := BitVec.ofNat 16 rx.length, rxb := Memory.writeBytes [] 0 rx }

/-- The state after one step that runs a command word given as a number. -/
def afterWord (w : Nat) (s : State) : Option State :=
  match step (s.withFetchWord 56 w) with
  | .next t => some t
  | .fault _ => none
  | .refused _ => none

/-- The response to one command word given as a number. -/
def responseTo (w : Nat) (s : State) : Option Response := (afterWord w s).bind fun t => t.rsp

/-- `78 56 34 12 02 00 ED 3A`, the GetReq frame of V1. -/
def getReqFrame : List Byte := [0x78#8, 0x56#8, 0x34#8, 0x12#8, 0x02#8, 0x00#8, 0xED#8, 0x3A#8]

/-- Row 4 of V32: bit 0 of byte 0 flipped. -/
def damagedFrame : List Byte := [0x79#8, 0x56#8, 0x34#8, 0x12#8, 0x02#8, 0x00#8, 0xED#8, 0x3A#8]

/-! ### Well-formed words and configurations (30_encoding.md R69 to R71, 00_scope.md R6) -/

theorem test_word_legal : CommandWord.wellFormed 0x11FFFFFFFFFFFF#56 = true := by decide
theorem test_word_reserved_opcodes :
    CommandWord.wellFormed 0x00000000000000#56 = false ∧ CommandWord.wellFormed 0x04000000000000#56 = false ∧
    CommandWord.wellFormed 0x0F000000000000#56 = false ∧ CommandWord.wellFormed 0x16000000000000#56 = false ∧
    CommandWord.wellFormed 0x26000000000000#56 = false ∧ CommandWord.wellFormed 0xFF000000000000#56 = false := by
  decide
theorem test_word_reserved_bits_form_n :
    CommandWord.wellFormed 0x01000000000001#56 = false ∧ CommandWord.wellFormed 0x03800000000000#56 = false := by
  decide
theorem test_word_reserved_bits_form_b :
    CommandWord.wellFormed 0x02000000000100#56 = false ∧ CommandWord.wellFormed 0x12000000000141#56 = false := by
  decide
theorem test_word_reserved_bits_form_i :
    CommandWord.wellFormed 0x14000000010000#56 = false ∧ CommandWord.wellFormed 0x24000100000000#56 = false := by
  decide
theorem test_config_bounds :
    Config.Valid { Config.vectors with cap := 8 } ∧ Config.Valid { Config.vectors with cap := 65535 } ∧
    ¬ Config.Valid { Config.vectors with cap := 7 } ∧ ¬ Config.Valid { Config.vectors with cap := 65536 } := by
  decide
theorem test_config_function_codes_distinct : ¬ Config.Valid { Config.vectors with fnSetReq := 0x00#8 } := by decide
/-- P3: the longest payload of CAP = 16. -/
theorem test_maxPayload : maxPayload { Config.vectors with cap := 16 } = 8 := by decide
theorem test_memory_not_rising : ¬ Memory.wf [(1, 0x00#8), (1, 0x01#8)] := by decide

/-- The rows of spec/opcode_table.json: mnemonic, match and mask, in its order. -/
theorem test_opcode_table_match_and_mask :
    opcodeTable.map (fun r => (r.mnemonic, (r.opcode ++ 0#48 : BitVec 56), (0xFF#8 ++ r.form.reservedBits : BitVec 56)))
      = [("CRC.INIT", 0x01000000000000#56, 0xFFFFFFFFFFFFFF#56), ("CRC.UPD", 0x02000000000000#56, 0xFFFFFFFFFFFF00#56),
         ("CRC.RD", 0x03000000000000#56, 0xFFFFFFFFFFFFFF#56), ("TX.CLR", 0x10000000000000#56, 0xFFFFFFFFFFFFFF#56),
         ("TX.HDR", 0x11000000000000#56, 0xFF000000000000#56), ("TX.PUT", 0x12000000000000#56, 0xFFFFFFFFFFFF00#56),
         ("TX.SEAL", 0x13000000000000#56, 0xFFFFFFFFFFFFFF#56), ("TX.RD", 0x14000000000000#56, 0xFFFFFFFFFF0000#56),
         ("TX.LEN", 0x15000000000000#56, 0xFFFFFFFFFFFFFF#56), ("RX.CLR", 0x20000000000000#56, 0xFFFFFFFFFFFFFF#56),
         ("RX.PUT", 0x21000000000000#56, 0xFFFFFFFFFFFF00#56), ("RX.CHK", 0x22000000000000#56, 0xFFFFFFFFFFFFFF#56),
         ("RX.DEC", 0x23000000000000#56, 0xFFFFFFFFFFFFFF#56), ("RX.RD", 0x24000000000000#56, 0xFFFFFFFFFF0000#56),
         ("RX.LEN", 0x25000000000000#56, 0xFFFFFFFFFFFFFF#56)] := by
  decide

/-! ### One word of each command (30_encoding.md R69, R70, R75; V13, V21, V30, V40) -/

theorem test_decode_crcInit : decodeTableWord 56 0x01000000000000 = some .crcInit := by decide
theorem test_decode_crcUpd : decodeTableWord 56 0x02000000000031 = some (.crcUpd 0x31#8) := by decide
theorem test_decode_crcRd : decodeTableWord 56 0x03000000000000 = some .crcRd := by decide
theorem test_decode_txClr : decodeTableWord 56 0x10000000000000 = some .txClr := by decide
theorem test_decode_txHdr :
    decodeTableWord 56 0x11027FA1B2C3D4 = some (.txHdr 0xA1B2C3D4#32 0x7F#8 0x02#8) := by decide
theorem test_decode_txPut : decodeTableWord 56 0x120000000000DE = some (.txPut 0xDE#8) := by decide
theorem test_decode_txSeal : decodeTableWord 56 0x13000000000000 = some .txSeal := by decide
theorem test_decode_txRd : decodeTableWord 56 0x1400000000FFFF = some (.txRd 65535#16) := by decide
theorem test_decode_txLen : decodeTableWord 56 0x15000000000000 = some .txLen := by decide
theorem test_decode_rxClr : decodeTableWord 56 0x20000000000000 = some .rxClr := by decide
theorem test_decode_rxPut : decodeTableWord 56 0x2100000000008D = some (.rxPut 0x8D#8) := by decide
theorem test_decode_rxChk : decodeTableWord 56 0x22000000000000 = some .rxChk := by decide
theorem test_decode_rxDec : decodeTableWord 56 0x23000000000000 = some .rxDec := by decide
theorem test_decode_rxRd : decodeTableWord 56 0x24000000000010 = some (.rxRd 16#16) := by decide
theorem test_decode_rxLen : decodeTableWord 56 0x25000000000000 = some .rxLen := by decide
theorem test_decode_refuses_by_name :
    decode 0x16000000000000#56 = .error (.reservedOpcode 0x16#8) ∧
    decode 0x14000000010000#56 = .error (.reservedOperandBit 0x14#8 0x000000010000#48) := by decide
theorem test_decode_refuses_a_longer_word : decodeTableWord 56 (2 ^ 56 + 0x01000000000000) = none := by decide

/-! ### The checksum (V10, V12, V2, V3) -/

theorem test_crcStep_rows :
    crcStep 0x0000#16 0x01#8 = 0xC0C1#16 ∧ crcStep 0x8000#16 0x00#8 = 0x0080#16 ∧
    crcStep 0xA001#16 0x00#8 = 0xC061#16 ∧ crcStep 0x1234#16 0xAB#8 = 0x6852#16 ∧
    crcStep 0xFFFF#16 0xFF#8 = 0x00FF#16 := by decide +kernel
theorem test_crc16_check_value :
    crc16 [0x31#8, 0x32#8, 0x33#8, 0x34#8, 0x35#8, 0x36#8, 0x37#8, 0x38#8, 0x39#8] = 0x4B37#16 := by decide +kernel
theorem test_crc16_modbus_request :
    le16Put (crc16 [0x01#8, 0x03#8, 0x00#8, 0x00#8, 0x00#8, 0x0A#8]) = [0xC5#8, 0xCD#8] := by decide +kernel
theorem test_crcStepSerial : crcStepSerial 0xFFFF#16 0x31#8 = 0x947E#16 := by decide +kernel

/-! ### One step of each command -/

/-- V13 row 6. -/
theorem test_crcInit : (afterWord 0x01000000000000 { block 64 [] [] with crc := 0xF595#16 }).map
    (fun t => (t.crc, t.rsp)) = some (0xFFFF#16, some ⟨.ok, 0x0#64⟩) := by decide +kernel
/-- V13 row 4. -/
theorem test_crcUpd : (afterWord 0x02000000000032 { block 64 [] [] with crc := 0x947E#16 }).map
    (fun t => (t.crc, t.rsp)) = some (0xF595#16, some ⟨.ok, 0x0#64⟩) := by decide +kernel
/-- V13 row 5. -/
theorem test_crcRd : responseTo 0x03000000000000 { block 64 [] [] with crc := 0xF595#16 } =
    some ⟨.ok, 0xF595#64⟩ := by decide +kernel
/-- V21 row 10, with the byte of row 3 still there. -/
theorem test_txClr : (afterWord 0x10000000000000 (block 64 [0xFF#8, 0xFF#8] [])).map
    (fun t => (t.txlen, t.txb, t.rsp)) = some (0#16, [(0, 0xFF#8), (1, 0xFF#8)], some ⟨.ok, 0x0#64⟩) := by
  decide +kernel
/-- P3 row 1, over a buffer that holds other bytes. -/
theorem test_txHdr : (afterWord 0x11027FA1B2C3D4 (block 64 getReqFrame [])).map
    (fun t => (t.txlen, t.txb, t.rsp)) =
    some (6#16, [(0, 0xD4#8), (1, 0xC3#8), (2, 0xB2#8), (3, 0xA1#8), (4, 0x7F#8), (5, 0x02#8), (6, 0xED#8),
      (7, 0x3A#8)], some ⟨.ok, 0x6#64⟩) := by decide +kernel
/-- V22 row 15: the last byte that fits at CAP = 8. -/
theorem test_txPut : (afterWord 0x12000000000006 (block 8 [1#8, 2#8, 3#8, 4#8, 5#8] [])).map
    (fun t => (t.txlen, Memory.read t.txb 5, t.rsp)) = some (6#16, some 0x06#8, some ⟨.ok, 0x6#64⟩) := by
  decide +kernel
/-- V22 row 16. -/
theorem test_txPut_overflow : responseTo 0x12000000000007 (block 8 [1#8, 2#8, 3#8, 4#8, 5#8, 6#8] []) =
    some ⟨.overflow, 0x0#64⟩ := by decide +kernel
/-- V22 row 17. -/
theorem test_txSeal : (afterWord 0x13000000000000 (block 8 [1#8, 2#8, 3#8, 4#8, 5#8, 6#8] [])).map
    (fun t => (t.txlen, Memory.read t.txb 6, Memory.read t.txb 7, t.crc, t.rsp)) =
    some (8#16, some 0xBA#8, some 0xDD#8, 0xFFFF#16, some ⟨.ok, 0x8#64⟩) := by decide +kernel
/-- V21 row 3 on a buffer with stale bytes: the checksum of no bytes is 0xFFFF. -/
theorem test_txSeal_empty : (afterWord 0x13000000000000 { block 64 getReqFrame [] with txlen := 0#16 }).map
    (fun t => (t.txlen, Memory.read t.txb 0, Memory.read t.txb 1, Memory.read t.txb 2)) =
    some (2#16, some 0xFF#8, some 0xFF#8, some 0x34#8) := by decide +kernel
/-- P1.1 row 10. -/
theorem test_txRd : responseTo 0x14000000000006 (block 64 getReqFrame []) = some ⟨.ok, 0xED#64⟩ := by decide +kernel
/-- V22 row 8. -/
theorem test_txRd_overflow : responseTo 0x14000000000008 (block 8 getReqFrame []) = some ⟨.overflow, 0x0#64⟩ := by
  decide +kernel
/-- P1.1 row 3. -/
theorem test_txLen : responseTo 0x15000000000000 (block 64 getReqFrame []) = some ⟨.ok, 0x8#64⟩ := by decide +kernel
/-- V30 row 12. -/
theorem test_rxClr : (afterWord 0x20000000000000 (block 64 [0x41#8] [0xFF#8, 0xFF#8])).map
    (fun t => (t.rxlen, t.txlen, t.rsp)) = some (0#16, 1#16, some ⟨.ok, 0x0#64⟩) := by decide +kernel
/-- P1.2 row 9 at CAP = 8: the whole buffer may be filled. -/
theorem test_rxPut : (afterWord 0x2100000000003A (block 8 [] (getReqFrame.take 7))).map
    (fun t => (t.rxlen, Memory.read t.rxb 7, t.rsp)) = some (8#16, some 0x3A#8, some ⟨.ok, 0x8#64⟩) := by
  decide +kernel
/-- As P3.2 row 18, at CAP = 8. -/
theorem test_rxPut_overflow : responseTo 0x21000000000099 (block 8 [] getReqFrame) = some ⟨.overflow, 0x0#64⟩ := by
  decide +kernel
/-- V31 row 5. -/
theorem test_rxChk : responseTo 0x22000000000000 (block 64 [] [0x00#8, 0xBF#8, 0x40#8]) = some ⟨.ok, 0x1#64⟩ := by
  decide +kernel
/-- V31 rows 1 and 7. -/
theorem test_rxChk_zero : responseTo 0x22000000000000 (block 64 [] []) = some ⟨.ok, 0x0#64⟩ ∧
    responseTo 0x22000000000000 (block 64 [] [1#8, 2#8, 3#8, 4#8, 0x2B#8, 0xA1#8]) = some ⟨.ok, 0x0#64⟩ := by
  decide +kernel
/-- V32 rows 6 and 11. -/
theorem test_rxDec :
    responseTo 0x23000000000000 (block 64 [] [0x78#8, 0x56#8, 0x34#8, 0x12#8, 0x02#8, 0x01#8, 0xDE#8, 0xAD#8, 0xBE#8,
      0xEF#8, 0xB3#8, 0x44#8]) = some ⟨.ok, 0x0004010212345678#64⟩ ∧
    responseTo 0x23000000000000 (block 64 [] [1#8, 3#8, 0#8, 0#8, 0#8, 0x0A#8, 0xC5#8, 0xCD#8]) =
      some ⟨.ok, 0x00000A0000000301#64⟩ := by decide +kernel
/-- V41 and V32 row 4: the length is judged before the checksum. -/
theorem test_rxDec_errors :
    responseTo 0x23000000000000 (block 64 [] (getReqFrame.take 7)) = some ⟨.fault, 0x0#64⟩ ∧
    responseTo 0x23000000000000 (block 64 [] damagedFrame) = some ⟨.checksumError, 0x0#64⟩ := by decide +kernel
/-- V30 row 10. -/
theorem test_rxRd : responseTo 0x24000000000001 (block 64 [] [0x00#8, 0xFF#8]) = some ⟨.ok, 0xFF#64⟩ := by
  decide +kernel
/-- V30 row 11. -/
theorem test_rxRd_overflow : responseTo 0x24000000000002 (block 64 [] [0x00#8, 0xFF#8]) =
    some ⟨.overflow, 0x0#64⟩ := by decide +kernel
/-- V50 and the length after P1.2. -/
theorem test_rxLen : responseTo 0x25000000000000 State.reset = some ⟨.ok, 0x0#64⟩ ∧
    responseTo 0x25000000000000 (block 64 [] getReqFrame) = some ⟨.ok, 0x8#64⟩ := by decide +kernel
/-- V40: `ILLEGAL` wins over `OVERFLOW` and `FAULT`, and no state changes. -/
theorem test_illegal :
    afterWord 0x14000000010000 State.reset = some { State.reset with rsp := some ⟨.illegal, 0x0#64⟩ } ∧
    afterWord 0x23000000000001 State.reset = some { State.reset with rsp := some ⟨.illegal, 0x0#64⟩ } ∧
    afterWord 0x00000000000000 State.reset = some { State.reset with rsp := some ⟨.illegal, 0x0#64⟩ } := by
  decide +kernel
/-- P6: reset in the middle of a frame. -/
theorem test_reset_input :
    step { block 64 getReqFrame [] with crc := 0x947E#16, inputs := [.reset] } = .next State.reset := rfl

/-! ### Witnesses: states and operands that meet the hypotheses of the statements -/

/-- A state with a sealed frame in both buffers, two commands presented and no response pending. -/
def working : State :=
  { block 8 getReqFrame getReqFrame with inputs := [.command 0x23000000000000#56, .reset] }

theorem witness_inv_working : Inv working :=
  { config := by decide
    transmit := ⟨by decide, by decide, by decide, by decide⟩
    receive := ⟨by decide, by decide, by decide, by decide⟩
    response := fun _ h => by cases h }

theorem witness_inv_pending : Inv { working with rsp := some ⟨.ok, 8#64⟩ } :=
  { config := by decide
    transmit := ⟨by decide, by decide, by decide, by decide⟩
    receive := ⟨by decide, by decide, by decide, by decide⟩
    response := fun _ h hne => by cases h; exact absurd rfl hne }

/-- `StepRunsTheDecodedCommand`, and the second half of `CommandsAndResponsesAlternate`. -/
theorem witness_step :
    working.inputs = .command 0x23000000000000#56 :: [.reset] ∧ working.rsp = none ∧
    decode 0x23000000000000#56 = .ok .rxDec ∧ Inv working := ⟨rfl, rfl, by decide, witness_inv_working⟩

/-- `StepRunsTheDecodedCommand`, with a word that is no command. -/
theorem witness_step_illegal :
    (present 0x14000000010000#56 working).inputs = .command 0x14000000010000#56 :: working.inputs ∧
    (present 0x14000000010000#56 working).rsp = none ∧
    decode 0x14000000010000#56 = .error (.reservedOperandBit 0x14#8 0x000000010000#48) := ⟨rfl, rfl, by decide⟩

/-- The first half of `CommandsAndResponsesAlternate`. -/
theorem witness_response_pending :
    ∃ s r, Inv s ∧ s.inputs = .command 0x23000000000000#56 :: [.reset] ∧ s.rsp = some r :=
  ⟨_, _, witness_inv_pending, rfl, rfl⟩

/-- `IllegalWordsChangeNothing`: each of the two ways a word is refused, and a legal word. -/
theorem witness_illegal_words :
    CommandWord.opcodeAssigned 0x16000000000000#56 = false ∧
    CommandWord.reservedBitsZero 0x14000000010000#56 = false ∧
    CommandWord.wellFormed 0x1400000000FFFF#56 = true := by decide

/-- `ResetInputGivesResetState` and `NothingPresentedHoldsState`. -/
theorem witness_reset_and_idle :
    ({ working with inputs := [.reset] } : State).inputs = .reset :: [] ∧ (block 8 getReqFrame []).inputs = [] :=
  ⟨rfl, rfl⟩

/-- `ResetRegisterValues`, `ResetObeysInvariant`, `FunctionBytesAreClassified`: both ends of the capacity. -/
theorem witness_configs :
    Config.Valid { Config.vectors with cap := 8 } ∧ Config.Valid { Config.vectors with cap := 65535 } := by decide

/-- `RefusesReservedBits` in the statements of the commands of forms N, B and I. -/
theorem witness_reserved_bits :
    (0x800000000000#48 &&& Form.none.reservedBits ≠ 0#48) ∧
    (0x000000000100#48 &&& Form.byte.reservedBits ≠ 0#48) ∧
    (0x000000010000#48 &&& Form.index.reservedBits ≠ 0#48) := by decide

/-- `TxHdrWritesHeader`, and both clauses of `TxPutAppendsOneByte` at the boundary of CAP = 8. -/
theorem witness_txPut :
    (block 8 [1#8, 2#8, 3#8, 4#8, 5#8] []).cfg.Valid ∧
    (block 8 [1#8, 2#8, 3#8, 4#8, 5#8] []).txlen.toNat + 3 ≤ (block 8 [1#8, 2#8, 3#8, 4#8, 5#8] []).cfg.cap ∧
    (block 8 [1#8, 2#8, 3#8, 4#8, 5#8, 6#8] []).cfg.cap <
      (block 8 [1#8, 2#8, 3#8, 4#8, 5#8, 6#8] []).txlen.toNat + 3 := by decide

/-- Both clauses of `TxSealAppendsChecksum` at the boundary of CAP = 8. -/
theorem witness_txSeal :
    (block 8 [1#8, 2#8, 3#8, 4#8, 5#8, 6#8] []).cfg.Valid ∧
    Holds (block 8 [1#8, 2#8, 3#8, 4#8, 5#8, 6#8] []) .tx [1#8, 2#8, 3#8, 4#8, 5#8, 6#8] ∧
    [1#8, 2#8, 3#8, 4#8, 5#8, 6#8].length + 2 ≤ (block 8 [1#8, 2#8, 3#8, 4#8, 5#8, 6#8] []).cfg.cap ∧
    (block 8 (getReqFrame.take 7) []).cfg.cap < (block 8 (getReqFrame.take 7) []).txlen.toNat + 2 :=
  ⟨by decide, ⟨rfl, rfl⟩, by decide, by decide⟩

/-- Both clauses of `TxRdReadsValidByte` and of `RxRdReadsValidByte`: the last valid index and the first beyond. -/
theorem witness_rd :
    BufferInv working .tx ∧ (7#16).toNat < working.txlen.toNat ∧ working.txlen.toNat ≤ (8#16).toNat ∧
    BufferInv working .rx ∧ (7#16).toNat < working.rxlen.toNat ∧ working.rxlen.toNat ≤ (8#16).toNat :=
  ⟨witness_inv_working.transmit, by decide, by decide, witness_inv_working.receive, by decide, by decide⟩

/-- Both clauses of `RxPutAppendsOneByte` at the boundary of CAP = 8. -/
theorem witness_rxPut :
    (block 8 [] (getReqFrame.take 7)).cfg.Valid ∧
    (block 8 [] (getReqFrame.take 7)).rxlen.toNat + 1 ≤ (block 8 [] (getReqFrame.take 7)).cfg.cap ∧
    (block 8 [] getReqFrame).cfg.cap < (block 8 [] getReqFrame).rxlen.toNat + 1 := by decide

theorem witness_trailer_verifies : trailerVerifies getReqFrame := by unfold trailerVerifies; decide +kernel
theorem witness_trailer_fails : ¬ trailerVerifies damagedFrame := by unfold trailerVerifies; decide +kernel

/-- Both clauses of `RxChkGivesVerdict`: two bytes that verify, and fewer than two bytes. -/
theorem witness_rxChk :
    Holds (block 8 [] [0xFF#8, 0xFF#8]) .rx [0xFF#8, 0xFF#8] ∧ trailerVerifies [0xFF#8, 0xFF#8] ∧
    Holds (block 8 [] [0xFF#8]) .rx [0xFF#8] ∧ ¬ trailerVerifies [0xFF#8] :=
  ⟨⟨rfl, rfl⟩, by unfold trailerVerifies; decide +kernel, ⟨rfl, rfl⟩, fun h => absurd h.1 (by decide)⟩

/-- The three clauses of `RxDecChecksAndParses`, at the lengths 7 and 8. -/
theorem witness_rxDec :
    Holds (block 8 [] (getReqFrame.take 7)) .rx (getReqFrame.take 7) ∧ (getReqFrame.take 7).length < 8 ∧
    Holds (block 8 [] damagedFrame) .rx damagedFrame ∧ 8 ≤ damagedFrame.length ∧
    ¬ trailerVerifies damagedFrame ∧
    Holds (block 8 [] getReqFrame) .rx getReqFrame ∧ 8 ≤ getReqFrame.length ∧ trailerVerifies getReqFrame :=
  ⟨⟨rfl, rfl⟩, by decide, ⟨rfl, rfl⟩, by decide, witness_trailer_fails, ⟨rfl, rfl⟩, by decide,
    witness_trailer_verifies⟩

/-- `ErrorsChangeNothing`: a command that responds `OVERFLOW`. -/
theorem witness_error :
    runWord 0x14000000000008#56 working = .next (working.answer .overflow 0#64) ∧
    (working.answer .overflow 0#64).rsp = some ⟨.overflow, 0#64⟩ ∧ Status.overflow ≠ .ok :=
  ⟨rfl, rfl, by decide⟩

/-- `OnlyOwnCommandsWrite` and `ReadsRepeatAndSettersAreIdempotent`: a reading command and a setting one. -/
theorem witness_reads_and_setters :
    writesCrc .rxLen = false ∧ writesTransmit .rxLen = false ∧ writesReceive .rxLen = false ∧
    exec .rxLen working = .next (working.answer .ok 8#64) ∧ Inv working ∧ setsWhatever .txClr = true ∧
    exec .txClr working = .next ({ working with txlen := 0#16 }.answer .ok 0#64) :=
  ⟨rfl, rfl, rfl, rfl, witness_inv_working, rfl, rfl⟩

/-- A state with a frame's bytes left above the length of the transmit buffer. -/
def stale (b : Byte) : State := { block 8 [1#8, b] getReqFrame with txlen := 1#16 }

theorem witness_inv_stale : Inv (stale 2#8) ∧ Inv (stale 3#8) :=
  ⟨⟨by decide, ⟨by decide, by decide, by decide, by decide⟩, ⟨by decide, by decide, by decide, by decide⟩,
      fun _ h => by cases h⟩,
    ⟨by decide, ⟨by decide, by decide, by decide, by decide⟩, ⟨by decide, by decide, by decide, by decide⟩,
      fun _ h => by cases h⟩⟩

/-- `StaleBytesAreNeverObserved`: two states that differ in a byte above a length only. -/
theorem witness_stale :
    Alike (stale 2#8) (stale 3#8) ∧ stale 2#8 ≠ stale 3#8 ∧ ∃ t, exec .txSeal (stale 2#8) = .next t :=
  ⟨⟨rfl, rfl, rfl, rfl, by decide, by decide⟩, by decide, _, rfl⟩

/-- `VerdictsDependOnReceivedBytesOnly`: two states with the same received bytes that differ elsewhere. -/
theorem witness_same_received :
    Holds (block 8 [1#8] getReqFrame) .rx getReqFrame ∧
    Holds { block 64 [] getReqFrame with crc := 0#16 } .rx getReqFrame := ⟨⟨rfl, rfl⟩, ⟨rfl, rfl⟩⟩

/-- `OneBitChangesChecksum`, `RoundTripAndSingleBitSensitivity`, `DecodeAcceptsExactlyWellFormedFrames`. -/
theorem witness_one_bit : DifferInOneBit getReqFrame damagedFrame ∧ WellFormedFrame 8 getReqFrame :=
  ⟨⟨[], 0x78#8, getReqFrame.tail, 0, by decide, rfl, rfl⟩, by decide, by decide, witness_trailer_verifies⟩

/-- The pseudo-operations' capacity hypotheses, at the boundary of CAP = 8: a payload that just fits in a frame, one
that does not; a sequence that just fits in front of its checksum, one that does not; a sequence as long as the
buffer, one that is longer. -/
theorem witness_capacity :
    (block 8 [] []).cfg.Valid ∧ ([] : List Byte).length + 8 ≤ (block 8 [] []).cfg.cap ∧
    (block 8 [] []).cfg.cap < [0#8].length + 8 ∧ (getReqFrame.take 6).length ≤ (block 8 [] []).cfg.cap - 2 ∧
    (block 8 [] []).cfg.cap - 2 < (getReqFrame.take 7).length ∧ getReqFrame.length ≤ (block 8 [] []).cfg.cap ∧
    (block 8 [] []).cfg.cap < (0#8 :: getReqFrame).length ∧ (block 8 [] []).cfg = working.cfg := by decide

/-- `CapacityLaw`: a run that ends with `OVERFLOW`. -/
theorem witness_capacity_overflow :
    ∃ t, issueAll (.txHdr 0#32 0#8 0#8 :: [0#8].map .txPut) (block 8 [] []) = .next t ∧ ¬ t.respondedOk = true :=
  ⟨_, rfl, by decide⟩

/-- Both clauses of `FunctionAndPayloadAreNotChecked`: V32 rows 8 and 9. -/
theorem witness_unchecked :
    fnClass (block 64 [] []).cfg 0x7F#8 = .unknown ∧ [0x55#8] ≠ [] ∧
    fnClass (block 64 [] []).cfg 0x00#8 = .getReq ∧ [0x55#8].length + 8 ≤ (block 64 [] []).cfg.cap := by decide

end Sys2Proof.Tests
end

section
/-! PROOFS, 30_encoding.md R65 and R69 to R71. The decoder, the opcode map and the reserved masks are written
separately in the model. Here the decoder is read row by row against the map (`decodeOp_of_row`,
`decodeOp_of_unassigned`), and `decode_cases` says once what decoding a word can answer. -/

namespace Sys2Proof

/-! ### Each operand form tests exactly the bits it reserves (R69) -/

theorem decodeNone_eq (op : Byte) (arg : Arg) (i : Instr) :
    decodeNone op arg i =
      if arg &&& Form.none.reservedBits = 0#48 then .ok i else .error (.reservedOperandBit op arg) := by
  simp only [decodeNone, reserved_none_eq_zero]

theorem decodeByte_eq (op : Byte) (arg : Arg) (i : Byte → Instr) :
    decodeByte op arg i =
      if arg &&& Form.byte.reservedBits = 0#48 then .ok (i (arg.extractLsb' 0 8))
      else .error (.reservedOperandBit op arg) := by
  simp only [decodeByte, reserved_byte_eq_zero]

theorem decodeIndex_eq (op : Byte) (arg : Arg) (i : Half → Instr) :
    decodeIndex op arg i =
      if arg &&& Form.index.reservedBits = 0#48 then .ok (i (arg.extractLsb' 0 16))
      else .error (.reservedOperandBit op arg) := by
  simp only [decodeIndex, reserved_index_eq_zero]

theorem decodeHeader_eq (op : Byte) (arg : Arg) (i : ServerId → Byte → Byte → Instr) :
    decodeHeader arg i =
      if arg &&& Form.header.reservedBits = 0#48 then
        .ok (i (arg.extractLsb' 0 32) (arg.extractLsb' 32 8) (arg.extractLsb' 40 8))
      else .error (.reservedOperandBit op arg) :=
  (if_pos (reserved_header_eq_zero arg)).symm

/-! ### The decoder against the opcode map (R70) -/

theorem decodeOp_of_row (arg : Arg) : ∀ r ∈ opcodeTable, ∃ i, decodeOp r.opcode arg =
    if arg &&& r.form.reservedBits = 0#48 then .ok i else .error (.reservedOperandBit r.opcode arg) := by
  simp only [opcodeTable, List.forall_mem_cons]
  exact ⟨⟨_, decodeNone_eq ..⟩, ⟨_, decodeByte_eq ..⟩, ⟨_, decodeNone_eq ..⟩,
    ⟨_, decodeNone_eq ..⟩, ⟨_, decodeHeader_eq ..⟩, ⟨_, decodeByte_eq ..⟩,
    ⟨_, decodeNone_eq ..⟩, ⟨_, decodeIndex_eq ..⟩, ⟨_, decodeNone_eq ..⟩,
    ⟨_, decodeNone_eq ..⟩, ⟨_, decodeByte_eq ..⟩, ⟨_, decodeNone_eq ..⟩,
    ⟨_, decodeNone_eq ..⟩, ⟨_, decodeIndex_eq ..⟩, ⟨_, decodeNone_eq ..⟩, List.forall_mem_nil _⟩

theorem decodeOp_of_unassigned {op : Byte} (h : ∀ r ∈ opcodeTable, r.opcode ≠ op) (arg : Arg) :
    decodeOp op arg = .error (.reservedOpcode op) := by
  unfold decodeOp
  split
  case h_16 => rfl
  all_goals simp [opcodeTable] at h

theorem opcodeTable_opcode_injective :
    ∀ r ∈ opcodeTable, ∀ r' ∈ opcodeTable, r'.opcode = r.opcode → r' = r := by decide

/-! ### The two checks of R71 by the row of the opcode -/

theorem opcodeAssigned_eq_true_iff (w : CommandWord) :
    w.opcodeAssigned = true ↔ ∃ r ∈ opcodeTable, r.opcode = w.op := by
  simp [CommandWord.opcodeAssigned]

theorem opcodeAssigned_eq_false_iff (w : CommandWord) :
    w.opcodeAssigned = false ↔ ∀ r ∈ opcodeTable, r.opcode ≠ w.op := by
  simp [CommandWord.opcodeAssigned]

theorem reservedBitsZero_eq_true_iff {w : CommandWord} {r : OpcodeRow} (hr : r ∈ opcodeTable)
    (hop : r.opcode = w.op) : w.reservedBitsZero = true ↔ w.arg &&& r.form.reservedBits = 0#48 := by
  have hall : w.reservedBitsZero = true ↔
      ∀ r' ∈ opcodeTable, r'.opcode = w.op → w.arg &&& r'.form.reservedBits = 0#48 := by
    simp [CommandWord.reservedBitsZero, ← imp_iff_not_or]
  rw [hall]
  constructor
  · exact fun h => h r hr hop
  · intro h r' hr' hop'
    rwa [opcodeTable_opcode_injective r hr r' hr' (hop'.trans hop.symm)]

theorem decode_eq (w : CommandWord) : decode w = decodeOp w.op w.arg := rfl

/-- What the decoder answers for a word: R71 (a) fails, R71 (a) holds and (b) fails, or both hold. -/
theorem decode_cases (w : CommandWord) :
    (w.opcodeAssigned = false ∧ decode w = .error (.reservedOpcode w.op)) ∨
    (w.opcodeAssigned = true ∧ w.reservedBitsZero = false ∧ decode w = .error (.reservedOperandBit w.op w.arg)) ∨
    (w.opcodeAssigned = true ∧ w.reservedBitsZero = true ∧ ∃ i, decode w = .ok i) := by
  rw [decode_eq]
  cases ha : w.opcodeAssigned with
  | false => exact .inl ⟨rfl, decodeOp_of_unassigned ((opcodeAssigned_eq_false_iff w).mp ha) w.arg⟩
  | true =>
    obtain ⟨r, hr, hop⟩ := (opcodeAssigned_eq_true_iff w).mp ha
    obtain ⟨i, hi⟩ := decodeOp_of_row w.arg r hr
    have hz := reservedBitsZero_eq_true_iff hr hop
    rw [hop] at hi
    cases hb : w.reservedBitsZero with
    | false => exact .inr (.inl ⟨rfl, rfl, hi.trans (if_neg fun h => by simp [hz.mpr h] at hb)⟩)
    | true => exact .inr (.inr ⟨rfl, rfl, i, hi.trans (if_pos (hz.mp hb))⟩)

theorem decode_ok_of_wellFormed {w : CommandWord} (h : w.wellFormed = true) : ∃ i, decode w = .ok i := by
  obtain ⟨ha, hb⟩ := Bool.and_eq_true_iff.mp h
  rcases decode_cases w with ⟨ha', -⟩ | ⟨-, hb', -⟩ | ⟨-, -, hi⟩
  · simp [ha] at ha'
  · simp [hb] at hb'
  · exact hi

theorem decode_error_of_illegal {w : CommandWord}
    (h : w.opcodeAssigned = false ∨ w.reservedBitsZero = false) : ∃ e, decode w = .error e := by
  rcases decode_cases w with ⟨-, he⟩ | ⟨-, -, he⟩ | ⟨ha, hb, -⟩
  · exact ⟨_, he⟩
  · exact ⟨_, he⟩
  · simp [ha, hb] at h

/-! ### The reserved opcodes (R71) -/

theorem unassigned_iff_reserved_range (op : Byte) :
    (∀ r ∈ opcodeTable, r.opcode ≠ op) ↔
      op.toNat = 0x00 ∨ (0x04 ≤ op.toNat ∧ op.toNat ≤ 0x0F) ∨ (0x16 ≤ op.toNat ∧ op.toNat ≤ 0x1F) ∨
        0x26 ≤ op.toNat := by
  simp only [opcodeTable, List.mem_cons, forall_eq_or_imp, List.not_mem_nil, false_imp_iff, implies_true, and_true,
    ne_eq, ← BitVec.toNat_inj, BitVec.toNat_ofNat]
  omega

theorem reservedOpcodes_count :
    ((List.range 256).countP fun op => opcodeTable.all fun r => r.opcode != BitVec.ofNat 8 op) = 241 := by
  decide +kernel

end Sys2Proof

namespace Sys2Proof.Machine

theorem runWord_of_error {w : CommandWord} {e : DecodeError} (h : decode w = .error e) (s : State) :
    runWord w s = .next (s.answer .illegal 0#64) := by
  simp [runWord, h]

/-! ### Function classification (R65) -/

theorem fnClass_cases (c : Config) (f : Byte) :
    (f = c.fnGetReq ∧ fnClass c f = .getReq) ∨ (f = c.fnSetReq ∧ fnClass c f = .setReq) ∨
    (f = c.fnGetResp ∧ fnClass c f = .getResp) ∨ (f = c.fnSetResp ∧ fnClass c f = .setResp) ∨
    (f ≠ c.fnGetReq ∧ f ≠ c.fnSetReq ∧ f ≠ c.fnGetResp ∧ f ≠ c.fnSetResp ∧ fnClass c f = .unknown) := by
  unfold fnClass
  split_ifs with h1 h2 h3 h4
  · exact .inl ⟨h1, rfl⟩
  · exact .inr (.inl ⟨h2, rfl⟩)
  · exact .inr (.inr (.inl ⟨h3, rfl⟩))
  · exact .inr (.inr (.inr (.inl ⟨h4, rfl⟩)))
  · exact .inr (.inr (.inr (.inr ⟨h1, h2, h3, h4, rfl⟩)))

theorem functionCodes_nodup_iff (c : Config) :
    c.functionCodes.Nodup ↔
      c.fnGetReq ≠ c.fnSetReq ∧ c.fnGetReq ≠ c.fnGetResp ∧ c.fnGetReq ≠ c.fnSetResp ∧
      c.fnSetReq ≠ c.fnGetResp ∧ c.fnSetReq ≠ c.fnSetResp ∧ c.fnGetResp ≠ c.fnSetResp := by
  simp [Config.functionCodes, and_assoc]

end Sys2Proof.Machine

open Sys2Proof Sys2Proof.Machine

/-- Settles O5: `decode_cases` gives the answers, and the map's opcodes the reserved ranges. -/
theorem illegalWordsChangeNothing : Obligations.IllegalWordsChangeNothing := by
  refine ⟨fun w s h => ?_, fun w => decode_ok_of_wellFormed, fun w => ?_, reservedOpcodes_count⟩
  · obtain ⟨e, he⟩ := decode_error_of_illegal h
    exact runWord_of_error he s
  · exact (opcodeAssigned_eq_false_iff w).trans (unassigned_iff_reserved_range w.op)

/-- Settles O53: the tests of `fnClass` come in an order, which distinct codes make irrelevant. -/
theorem functionBytesAreClassified : Obligations.FunctionBytesAreClassified := by
  intro c f ⟨_, _, hnodup⟩
  obtain ⟨h12, h13, h14, h23, h24, h34⟩ := (functionCodes_nodup_iff c).mp hnodup
  rcases fnClass_cases c f with ⟨rfl, h⟩ | ⟨rfl, h⟩ | ⟨rfl, h⟩ | ⟨rfl, h⟩ | ⟨h1, h2, h3, h4, h⟩
  · simp [h, Config.functionCodes, h12, h13, h14]
  · simp [h, Config.functionCodes, h12.symm, h23, h24]
  · simp [h, Config.functionCodes, h13.symm, h23.symm, h34]
  · simp [h, Config.functionCodes, h14.symm, h24.symm, h34.symm]
  · simp [h, Config.functionCodes, h1, h2, h3, h4]

end

section
/-! PROOFS, 40_crc.md R94 and R96, and the refusal of reserved operand bits for every row of the opcode map. -/

namespace Sys2Proof.Machine

/-- 30_encoding.md R71 (b), once for all 15 opcodes: the word of a row of the map (R70) with a 1 in a bit that the
row's form reserves is refused. -/
theorem refusesReservedBits_of_row {r : OpcodeRow} (hr : r ∈ opcodeTable) : RefusesReservedBits r.opcode r.form := by
  intro arg s hbit
  obtain ⟨i, hi⟩ := decodeOp_of_row arg r hr
  have herr : decode (r.opcode ++ arg) = .error (.reservedOperandBit r.opcode arg) := by
    rw [decode_append, hi, if_neg hbit]
  exact runWord_of_error herr s

theorem exec_crcInit (s : State) : exec .crcInit s = .next ({ s with crc := 0xFFFF#16 }.answer .ok 0#64) := rfl

theorem exec_crcRd (s : State) : exec .crcRd s = .next (s.answer .ok (s.crc.setWidth 64)) := rfl

end Sys2Proof.Machine

open Sys2Proof Sys2Proof.Machine

/-- Settles O13: the meaning of the command, its word, and the row of the map for the words refused. -/
theorem crcInitSetsInitialValue : Obligations.CrcInitSetsInitialValue := by
  refine ⟨exec_crcInit, ?_, refusesReservedBits_of_row (r := ⟨0x01#8, "CRC.INIT", .none⟩) (by decide)⟩
  rw [decode_append]
  exact decodeNone_zero 0x01#8 .crcInit

/-- Settles O15: the meaning of the command, its word, and the row of the map for the words refused. -/
theorem crcRdReadsAccumulator : Obligations.CrcRdReadsAccumulator := by
  refine ⟨exec_crcRd, ?_, refusesReservedBits_of_row (r := ⟨0x03#8, "CRC.RD", .none⟩) (by decide)⟩
  rw [decode_append]
  exact decodeNone_zero 0x03#8 .crcRd

end

section
/-! PROOFS, 41_encoder.md R111 to R118. A command of the encoder ends in one of a few states (`appended`,
`headerPlaced`, or the old state with an answer). Each meaning says once which one; what the state's bytes and
registers are is said of the state. -/

namespace Sys2Proof.Machine

/-! ### The bytes after a run of writes -/

theorem Memory.read_writeBytes_inside (m : Memory) (a : Nat) (vs : List Byte) {i : Nat} (h : i < vs.length) :
    Memory.read (Memory.writeBytes m a vs) (a + i) = vs[i]? := by
  rw [Memory.read_writeBytes, if_pos (by omega), Nat.add_sub_cancel_left]

theorem Memory.read_writeBytes_outside (m : Memory) (a : Nat) (vs : List Byte) {i : Nat}
    (h : i < a ∨ a + vs.length ≤ i) : Memory.read (Memory.writeBytes m a vs) i = Memory.read m i := by
  rw [Memory.read_writeBytes, if_neg (by omega)]

/-! ### The state after an append -/

theorem appended_read {b : BufferId} {bs : List Byte} {s : State} {i : Nat} (h : i < bs.length) :
    Memory.read ((appended b bs s).buf b) ((s.len b).toNat + i) = bs[i]? := by
  rw [appended_buf, Memory.read_writeBytes_inside _ _ _ h]

theorem appended_sameBytesOutside (b : BufferId) (bs : List Byte) (s : State) :
    SameBytesOutside b (s.len b).toNat bs.length s (appended b bs s) := by
  intro a ha
  rw [appended_buf, Memory.read_writeBytes_outside _ _ _ ha]

/-- The new length does not wrap, since CAP fits in 16 bits (00_scope.md R6; log 10). -/
theorem appended_len_toNat {b : BufferId} {bs : List Byte} {s : State} (hv : s.cfg.Valid)
    (hfit : (s.len b).toNat + bs.length ≤ s.cfg.cap) :
    ((appended b bs s).len b).toNat = (s.len b).toNat + bs.length := by
  obtain ⟨-, hcap, -⟩ := hv
  rw [appended_len, BitVec.toNat_ofNat]
  exact Nat.mod_eq_of_lt (by omega)

theorem appended_rsp_len (b : BufferId) (bs : List Byte) (s : State) :
    (appended b bs s).rsp = some ⟨.ok, ((appended b bs s).len b).setWidth 64⟩ := by
  rw [appended_rsp, appended_len, halfData]

/-! ### The header's bytes in the operand (30_encoding.md R69) -/

/-- The bits of a command word below its opcode are the operand's (30_encoding.md R68). -/
theorem encode_extract_operand (i : Instr) {a k : Nat} (h : a + k ≤ 48) :
    (encode i).extractLsb' a k = (operandOf i).extractLsb' a k :=
  extract_append_below (opcodeOf i) (operandOf i) a k h

theorem le32Put_getElem? (v : BitVec 32) {k : Nat} (h : k < 4) : (le32Put v)[k]? = some (v.extractLsb' (8 * k) 8) := by
  interval_cases k <;> rfl

/-- `TXB[k] <- arg[8k+7:8k]` for k = 0..5 (41_encoder.md R112). -/
theorem headerBytes_getElem? (sid : ServerId) (slot fn : Byte) {k : Nat} (h : k < 6) :
    (headerBytes sid slot fn)[k]? = some ((encode (.txHdr sid slot fn)).extractLsb' (8 * k) 8) := by
  rw [encode_extract_operand _ (by omega)]
  change (le32Put sid ++ [slot, fn])[k]? = some ((fn ++ slot ++ sid : Arg).extractLsb' (8 * k) 8)
  obtain hsid | rfl | rfl : k < 4 ∨ k = 4 ∨ k = 5 := by omega
  · rw [extract_append_below (fn ++ slot) sid _ _ (by omega), ← le32Put_getElem? sid hsid]
    exact List.getElem?_append_left hsid
  · have hslot : (fn ++ slot ++ sid : Arg).extractLsb' 32 8 = slot :=
      (extract_append_above (fn ++ slot) sid 0 8).trans (extract_append_low fn slot)
    exact congrArg some hslot.symm
  · have hfn : (fn ++ slot ++ sid : Arg).extractLsb' 40 8 = fn :=
      (extract_append_above (fn ++ slot) sid 8 8).trans (extract_append_high fn slot)
    exact congrArg some hfn.symm

/-! ### The state after `TX.HDR` -/

/-- The state after a header is placed at the start of `TXB` and answered (41_encoder.md R112). -/
def headerPlaced (sid : ServerId) (slot fn : Byte) (s : State) : State :=
  ((s.setBuf (Memory.writeBytes s.txb 0 (headerBytes sid slot fn)) .tx).setLen 6#16 .tx).answer .ok 6#64

theorem headerPlaced_txb (sid : ServerId) (slot fn : Byte) (s : State) :
    (headerPlaced sid slot fn s).txb = Memory.writeBytes s.txb 0 (headerBytes sid slot fn) := by
  simp [headerPlaced]

theorem headerPlaced_read (sid : ServerId) (slot fn : Byte) (s : State) {k : Nat} (h : k < 6) :
    Memory.read (headerPlaced sid slot fn s).txb k = (headerBytes sid slot fn)[k]? := by
  rw [headerPlaced_txb]
  simpa using Memory.read_writeBytes_inside s.txb 0 (headerBytes sid slot fn) h

theorem headerPlaced_sameBytesOutside (sid : ServerId) (slot fn : Byte) (s : State) :
    SameBytesOutside .tx 0 6 s (headerPlaced sid slot fn s) := by
  intro a ha
  rw [State.buf_tx, headerPlaced_txb]
  exact Memory.read_writeBytes_outside s.txb 0 (headerBytes sid slot fn) ha

theorem headerPlaced_onlyBufferChanges (sid : ServerId) (slot fn : Byte) (s : State) :
    OnlyBufferChanges .tx s (headerPlaced sid slot fn s) where
  cfg := by simp [headerPlaced]
  crc := by simp [headerPlaced]
  inputs := by simp [headerPlaced]
  other b hb := by
    constructor
    · simp [headerPlaced, State.setBuf_buf_other _ _ _ _ hb]
    · simp [headerPlaced, State.setLen_len_other _ _ _ _ hb]

/-! ### What each command of the encoder does -/

theorem exec_txClr (s : State) : exec .txClr s = .next ({ s with txlen := 0#16 }.answer .ok 0#64) := rfl

theorem exec_txHdr {s : State} (hv : s.cfg.Valid) (sid : ServerId) (slot fn : Byte) :
    exec (.txHdr sid slot fn) s = .next (headerPlaced sid slot fn s) := by
  obtain ⟨hcap, -⟩ := hv
  have hfit : 0 + (headerBytes sid slot fn).length ≤ s.cfg.cap := by
    simp only [headerBytes, le32Put, List.length_append, List.length_cons, List.length_nil]
    omega
  rw [exec, execTxHdr, storeBytes_ok hfit]
  rfl

theorem exec_txPut_fits {s : State} (h : s.txlen.toNat + 3 ≤ s.cfg.cap) (b : Byte) :
    exec (.txPut b) s = .next (appended .tx [b] s) := by
  have hroom : ¬ lacksRoom s .tx 3 = true := by simpa using h
  have hfit : (s.len .tx).toNat + [b].length ≤ s.cfg.cap := by
    rw [State.len_tx, List.length_singleton]
    omega
  rw [exec, execTxPut, if_neg hroom, appendBytes_ok hfit]

theorem exec_txPut_overflow {s : State} (h : s.cfg.cap < s.txlen.toNat + 3) (b : Byte) :
    exec (.txPut b) s = .next (s.answer .overflow 0#64) := by
  have hroom : lacksRoom s .tx 3 = true := by simpa using h
  rw [exec, execTxPut, if_pos hroom, raise_eq]

theorem exec_txSeal_fits {s : State} {bs : List Byte} (hs : Holds s .tx bs) (h : bs.length + 2 ≤ s.cfg.cap) :
    exec .txSeal s = .next (appended .tx (le16Put (crc16 bs)) s) := by
  obtain ⟨hlen, hread⟩ := hs
  have hfit : (s.len .tx).toNat + (le16Put (crc16 bs)).length ≤ s.cfg.cap := by
    rw [hlen]
    exact h
  have hroom : ¬ lacksRoom s .tx 2 = true := by
    rw [lacksRoom_eq_true, hlen]
    omega
  have hbytes : readBytes s .tx 0 s.txlen.toNat = .ok bs := hread
  rw [exec, execTxSeal, if_neg hroom, hbytes, orFault_ok, appendBytes_ok hfit]

theorem exec_txSeal_overflow {s : State} (h : s.cfg.cap < s.txlen.toNat + 2) :
    exec .txSeal s = .next (s.answer .overflow 0#64) := by
  have hroom : lacksRoom s .tx 2 = true := by simpa using h
  rw [exec, execTxSeal, if_pos hroom, raise_eq]

theorem exec_txRd (i : Half) (s : State) : exec (.txRd i) s = readIndex .tx i s := rfl

theorem exec_txLen (s : State) : exec .txLen s = .next (s.answer .ok (s.txlen.setWidth 64)) := rfl

end Sys2Proof.Machine

open Sys2Proof Sys2Proof.Machine

/-- Settles O17: the command ends in `headerPlaced`, whose bytes are the operand's (`headerBytes_getElem?`). -/
theorem txHdrWritesHeader : Obligations.TxHdrWritesHeader := by
  refine ⟨fun sid slot fn s hv => ⟨headerPlaced sid slot fn s, exec_txHdr hv sid slot fn, fun k hk => ?_,
    headerPlaced_sameBytesOutside sid slot fn s, rfl, rfl, headerPlaced_onlyBufferChanges sid slot fn s⟩,
    fun sid slot fn => ?_, fun arg => ⟨_, _, _, decode_append 0x11#8 arg⟩⟩
  · rw [headerPlaced_read sid slot fn s hk, headerBytes_getElem? sid slot fn hk]
  · rw [decode_append]
    exact decodeHeader_append sid slot fn .txHdr

/-- Settles O18: with room the command ends in `appended .tx [b] s`, without room in `OVERFLOW`. -/
theorem txPutAppendsOneByte : Obligations.TxPutAppendsOneByte := by
  refine ⟨fun b s hv hroom => ⟨appended .tx [b] s, exec_txPut_fits hroom b, ?_,
    appended_sameBytesOutside .tx [b] s, ?_, appended_rsp_len .tx [b] s, appended_onlyBufferChanges .tx [b] s⟩,
    fun b s h => exec_txPut_overflow h b, fun b => ?_,
    refusesReservedBits_of_row (r := ⟨0x12#8, "TX.PUT", .byte⟩) (by decide)⟩
  · exact appended_read (b := .tx) (bs := [b]) (i := 0) Nat.zero_lt_one
  · have hfit : (s.len .tx).toNat + [b].length ≤ s.cfg.cap := by
      rw [State.len_tx, List.length_singleton]
      omega
    exact appended_len_toNat hv hfit
  · rw [decode_append]
    exact decodeByte_setWidth 0x12#8 b .txPut

/-- Settles O19: with room the command ends in `appended` with the checksum's two bytes, low byte first, and without
room in `OVERFLOW`. -/
theorem txSealAppendsChecksum : Obligations.TxSealAppendsChecksum := by
  refine ⟨fun bs s hv hs hroom => ⟨appended .tx (le16Put (crc16 bs)) s, exec_txSeal_fits hs hroom, ?_, ?_,
    appended_sameBytesOutside .tx (le16Put (crc16 bs)) s, ?_, appended_rsp_len .tx (le16Put (crc16 bs)) s,
    appended_onlyBufferChanges .tx (le16Put (crc16 bs)) s⟩,
    fun s h => exec_txSeal_overflow h, ?_,
    refusesReservedBits_of_row (r := ⟨0x13#8, "TX.SEAL", .none⟩) (by decide)⟩
  · exact appended_read (b := .tx) (bs := le16Put (crc16 bs)) (i := 0) Nat.zero_lt_two
  · exact appended_read (b := .tx) (bs := le16Put (crc16 bs)) (i := 1) Nat.one_lt_two
  · obtain ⟨hlen, -⟩ := hs
    have hfit : (s.len .tx).toNat + (le16Put (crc16 bs)).length ≤ s.cfg.cap := by
      rw [hlen]
      exact hroom
    exact appended_len_toNat hv hfit
  · rw [decode_append]
    exact decodeNone_zero 0x13#8 .txSeal

/-- Settles O20: the command is the indexed read of `TXB`, within the length and beyond it. -/
theorem txRdReadsValidByte : Obligations.TxRdReadsValidByte := by
  refine ⟨fun i s hinv hi => ?_, fun i s hi => ?_, fun i => ?_,
    refusesReservedBits_of_row (r := ⟨0x14#8, "TX.RD", .index⟩) (by decide)⟩
  · rw [exec_txRd]
    exact readIndex_within hinv hi
  · rw [exec_txRd]
    exact readIndex_beyond hi
  · rw [decode_append]
    exact decodeIndex_setWidth 0x14#8 i .txRd

/-- Settles O16: the meaning of the command, its word, and the row of the map for the words refused. -/
theorem txClrEmptiesTransmitBuffer : Obligations.TxClrEmptiesTransmitBuffer := by
  refine ⟨exec_txClr, ?_, refusesReservedBits_of_row (r := ⟨0x10#8, "TX.CLR", .none⟩) (by decide)⟩
  rw [decode_append]
  exact decodeNone_zero 0x10#8 .txClr

/-- Settles O21: the meaning of the command, its word, and the row of the map for the words refused. -/
theorem txLenReadsLength : Obligations.TxLenReadsLength := by
  refine ⟨exec_txLen, ?_, refusesReservedBits_of_row (r := ⟨0x15#8, "TX.LEN", .none⟩) (by decide)⟩
  rw [decode_append]
  exact decodeNone_zero 0x15#8 .txLen

end

section
/-! PROOFS, 42_decoder.md R131 to R140. `RX.PUT` ends in `appended .rx`, as the encoder's appends do. The response of
`RX.CHK` and `RX.DEC` is given once as a function of the bytes `f` that `RXB[0..RXLEN)` holds, for every state that
holds them; R133 to R135 and R140 are read off from that. -/

namespace Sys2Proof.Machine

/-! ### The fields of an `RX.DEC` response (30_encoding.md R73) -/

section
variable (n : Nat) (fn slot : Byte) (sid : ServerId)

theorem headerData_sid : (headerData n fn slot sid).extractLsb' 0 32 = sid :=
  extract_append_low (BitVec.ofNat 16 n ++ fn ++ slot) sid

theorem headerData_slot : (headerData n fn slot sid).extractLsb' 32 8 = slot :=
  (extract_append_above (BitVec.ofNat 16 n ++ fn ++ slot) sid 0 8).trans
    (extract_append_low (BitVec.ofNat 16 n ++ fn) slot)

theorem headerData_fn : (headerData n fn slot sid).extractLsb' 40 8 = fn := by
  calc (headerData n fn slot sid).extractLsb' 40 8
      = (BitVec.ofNat 16 n ++ fn ++ slot).extractLsb' 8 8 :=
        extract_append_above (BitVec.ofNat 16 n ++ fn ++ slot) sid 8 8
    _ = (BitVec.ofNat 16 n ++ fn).extractLsb' 0 8 := extract_append_above (BitVec.ofNat 16 n ++ fn) slot 0 8
    _ = fn := extract_append_low (BitVec.ofNat 16 n) fn

theorem headerData_payloadLength : (headerData n fn slot sid).extractLsb' 48 16 = BitVec.ofNat 16 n := by
  calc (headerData n fn slot sid).extractLsb' 48 16
      = (BitVec.ofNat 16 n ++ fn ++ slot).extractLsb' 16 16 :=
        extract_append_above (BitVec.ofNat 16 n ++ fn ++ slot) sid 16 16
    _ = (BitVec.ofNat 16 n ++ fn).extractLsb' 8 16 := extract_append_above (BitVec.ofNat 16 n ++ fn) slot 8 16
    _ = BitVec.ofNat 16 n := extract_append_high (BitVec.ofNat 16 n) fn

end

theorem exists_header_of_length {f : List Byte} (h : 6 ≤ f.length) :
    ∃ b0 b1 b2 b3 slot fn rest, f = b0 :: b1 :: b2 :: b3 :: slot :: fn :: rest := by
  match f, h with
  | b0 :: b1 :: b2 :: b3 :: slot :: fn :: rest, _ => exact ⟨b0, b1, b2, b3, slot, fn, rest, rfl⟩

/-- The payload length fits in its 16 bits of the response because the frame's length does (10_state.md R23). -/
theorem parsesHeader_headerData {f : List Byte} {b0 b1 b2 b3 slot fn : Byte} {rest : List Byte}
    (hf : f = b0 :: b1 :: b2 :: b3 :: slot :: fn :: rest) (hlen : f.length < 2 ^ 16) :
    ParsesHeader (headerData (f.length - minFrame) fn slot (le32Get b0 b1 b2 b3)) f := by
  refine ⟨b0, b1, b2, b3, slot, fn, rest, hf, headerData_sid .., headerData_slot .., headerData_fn .., ?_⟩
  rw [headerData_payloadLength, BitVec.toNat_ofNat]
  exact Nat.mod_eq_of_lt (Nat.lt_of_le_of_lt (Nat.sub_le _ _) hlen)

/-! ### What the received bytes decide -/

theorem Holds.rxlen_eq {s : State} {f : List Byte} (h : Holds s .rx f) : s.rxlen.toNat = f.length := h.left

theorem Holds.length_lt {s : State} {f : List Byte} (h : Holds s .rx f) : f.length < 2 ^ 16 :=
  h.rxlen_eq ▸ s.rxlen.isLt

theorem trailerMatches_true {s : State} {f : List Byte} (h : Holds s .rx f) (hv : trailerVerifies f) :
    trailerMatches s = .ok true := by
  have h2 : 2 ≤ f.length := hv.left
  obtain ⟨v, hs, hiff⟩ := trailerMatches_of_holds h h2
  rw [hs, hiff.mpr hv]

theorem trailerMatches_false {s : State} {f : List Byte} (h : Holds s .rx f) (h2 : 2 ≤ f.length)
    (hv : ¬ trailerVerifies f) : trailerMatches s = .ok false := by
  obtain ⟨v, hs, hiff⟩ := trailerMatches_of_holds h h2
  rw [hs, Bool.eq_false_iff.mpr (mt hiff.mp hv)]

/-! ### What each command of the decoder does -/

theorem exec_rxClr (s : State) : exec .rxClr s = .next ({ s with rxlen := 0#16 }.answer .ok 0#64) := rfl

theorem exec_rxPut_fits {s : State} (h : s.rxlen.toNat + 1 ≤ s.cfg.cap) (b : Byte) :
    exec (.rxPut b) s = .next (appended .rx [b] s) := by
  have hroom : ¬ lacksRoom s .rx 1 = true := by simpa using h
  rw [exec, execRxPut, if_neg hroom, appendBytes_ok (b := .rx) (bs := [b]) h]

theorem exec_rxPut_overflow {s : State} (h : s.cfg.cap < s.rxlen.toNat + 1) (b : Byte) :
    exec (.rxPut b) s = .next (s.answer .overflow 0#64) := by
  have hroom : lacksRoom s .rx 1 = true := by simpa using h
  rw [exec, execRxPut, if_pos hroom, raise_eq]

theorem exec_rxChk_verified {s : State} {f : List Byte} (h : Holds s .rx f) (hv : trailerVerifies f) :
    exec .rxChk s = .next (s.answer .ok 1#64) := by
  have h2 : 2 ≤ f.length := hv.left
  have hlong : ¬ receivedFewerThan s 2 = true := by
    rw [receivedFewerThan_eq_true, h.rxlen_eq]
    omega
  rw [exec, execRxChk, if_neg hlong, trailerMatches_true h hv]
  rfl

/-- A sequence too short for a trailer and one whose trailer is wrong answer alike (42_decoder.md R133). -/
theorem exec_rxChk_unverified {s : State} {f : List Byte} (h : Holds s .rx f) (hv : ¬ trailerVerifies f) :
    exec .rxChk s = .next (s.answer .ok 0#64) := by
  rw [exec, execRxChk]
  by_cases h2 : receivedFewerThan s 2 = true
  · rw [if_pos h2]
    rfl
  · have hlen : 2 ≤ f.length := by
      rw [receivedFewerThan_eq_true, h.rxlen_eq] at h2
      omega
    rw [if_neg h2, trailerMatches_false h hlen hv]
    rfl

theorem exec_rxDec_short {s : State} {f : List Byte} (h : Holds s .rx f) (hlen : f.length < 8) :
    exec .rxDec s = .next (s.answer .fault 0#64) := by
  have hshort : receivedFewerThan s minFrame = true := by
    rw [receivedFewerThan_eq_true, h.rxlen_eq]
    exact hlen
  rw [exec, execRxDec, if_pos hshort, raise_eq]

/-- Past the length test `RX.DEC` is decided by the trailer (42_decoder.md R135). -/
theorem exec_rxDec_long {s : State} {f : List Byte} (h : Holds s .rx f) (h8 : 8 ≤ f.length) :
    exec .rxDec s = orFault (trailerMatches s) fun v =>
      if v then orFault (parseHeader s) fun d => respond d s else raise .checksumError s := by
  have hlong : ¬ receivedFewerThan s minFrame = true := by
    rw [receivedFewerThan_eq_true, h.rxlen_eq]
    exact Nat.not_lt.mpr h8
  rw [exec, execRxDec, if_neg hlong]

theorem exec_rxDec_unverified {s : State} {f : List Byte} (h : Holds s .rx f) (h8 : 8 ≤ f.length)
    (hv : ¬ trailerVerifies f) : exec .rxDec s = .next (s.answer .checksumError 0#64) := by
  rw [exec_rxDec_long h h8, trailerMatches_false h (by omega) hv]
  rfl

/-- The data of a successful decode is one value for all states that hold the frame (42_decoder.md R134, R140). -/
theorem exec_rxDec_verified {f : List Byte} (h8 : 8 ≤ f.length) (hlen : f.length < 2 ^ 16)
    (hv : trailerVerifies f) :
    ∃ d, ParsesHeader d f ∧ ∀ s : State, Holds s .rx f → exec .rxDec s = .next (s.answer .ok d) := by
  obtain ⟨b0, b1, b2, b3, slot, fn, rest, hf⟩ := exists_header_of_length (f := f) (by omega)
  refine ⟨_, parsesHeader_headerData hf hlen, fun s h => ?_⟩
  have hparse : parseHeader s = .ok (headerData (f.length - minFrame) fn slot (le32Get b0 b1 b2 b3)) := by
    rw [← h.rxlen_eq]
    exact parseHeader_of_holds (hf ▸ h)
  rw [exec_rxDec_long h h8, trailerMatches_true h hv, orFault_ok, if_pos rfl, hparse, orFault_ok, respond_eq]

theorem exec_rxRd (i : Half) (s : State) : exec (.rxRd i) s = readIndex .rx i s := rfl

theorem exec_rxLen (s : State) : exec .rxLen s = .next (s.answer .ok (s.rxlen.setWidth 64)) := rfl

end Sys2Proof.Machine

open Sys2Proof Sys2Proof.Machine

/-- Settles O23: with room the command ends in `appended .rx [b] s`, without room in `OVERFLOW`. -/
theorem rxPutAppendsOneByte : Obligations.RxPutAppendsOneByte := by
  refine ⟨fun b s hv hroom => ⟨appended .rx [b] s, exec_rxPut_fits hroom b, ?_,
    appended_sameBytesOutside .rx [b] s, appended_len_toNat (b := .rx) (bs := [b]) hv hroom,
    appended_rsp_len .rx [b] s, appended_onlyBufferChanges .rx [b] s⟩,
    fun b s h => exec_rxPut_overflow h b, fun b => ?_,
    refusesReservedBits_of_row (r := ⟨0x21#8, "RX.PUT", .byte⟩) (by decide)⟩
  · exact appended_read (b := .rx) (bs := [b]) (i := 0) Nat.zero_lt_one
  · rw [decode_append]
    exact decodeByte_setWidth 0x21#8 b .rxPut

/-- Settles O24: the verdict is whether the received bytes' trailer verifies, short sequences included. -/
theorem rxChkGivesVerdict : Obligations.RxChkGivesVerdict := by
  refine ⟨fun f s h => ⟨exec_rxChk_verified h, exec_rxChk_unverified h⟩, ?_,
    refusesReservedBits_of_row (r := ⟨0x22#8, "RX.CHK", .none⟩) (by decide)⟩
  rw [decode_append]
  exact decodeNone_zero 0x22#8 .rxChk

/-- Settles O25: one lemma for each of the three results, in the order of the tests. -/
theorem rxDecChecksAndParses : Obligations.RxDecChecksAndParses := by
  refine ⟨fun f s h => ⟨exec_rxDec_short h, exec_rxDec_unverified h, fun h8 hv => ?_⟩, ?_,
    refusesReservedBits_of_row (r := ⟨0x23#8, "RX.DEC", .none⟩) (by decide)⟩
  · obtain ⟨d, hparses, hexec⟩ := exec_rxDec_verified h8 h.length_lt hv
    exact ⟨d, hexec s h, hparses⟩
  · rw [decode_append]
    exact decodeNone_zero 0x23#8 .rxDec

/-- Settles O26: the command is the indexed read of `RXB`, within the length and beyond it. -/
theorem rxRdReadsValidByte : Obligations.RxRdReadsValidByte := by
  refine ⟨fun i s hinv hi => ?_, fun i s hi => ?_, fun i => ?_,
    refusesReservedBits_of_row (r := ⟨0x24#8, "RX.RD", .index⟩) (by decide)⟩
  · rw [exec_rxRd]
    exact readIndex_within hinv hi
  · rw [exec_rxRd]
    exact readIndex_beyond hi
  · rw [decode_append]
    exact decodeIndex_setWidth 0x24#8 i .rxRd

/-- Settles O33: both commands' results are settled by conditions on the received bytes alone, so the two states take
the same case. -/
theorem verdictsDependOnReceivedBytesOnly : Obligations.VerdictsDependOnReceivedBytesOnly := by
  rintro f s s' h h' i (rfl | rfl)
  · by_cases hv : trailerVerifies f
    · exact ⟨_, _, exec_rxChk_verified h hv, exec_rxChk_verified h' hv⟩
    · exact ⟨_, _, exec_rxChk_unverified h hv, exec_rxChk_unverified h' hv⟩
  · rcases Nat.lt_or_ge f.length 8 with hshort | h8
    · exact ⟨_, _, exec_rxDec_short h hshort, exec_rxDec_short h' hshort⟩
    by_cases hv : trailerVerifies f
    · obtain ⟨d, -, hexec⟩ := exec_rxDec_verified h8 h.length_lt hv
      exact ⟨_, d, hexec s h, hexec s' h'⟩
    · exact ⟨_, _, exec_rxDec_unverified h h8 hv, exec_rxDec_unverified h' h8 hv⟩

/-- Settles O22: the meaning of the command, its word, and the row of the map for the words refused. -/
theorem rxClrEmptiesReceiveBuffer : Obligations.RxClrEmptiesReceiveBuffer := by
  refine ⟨exec_rxClr, ?_, refusesReservedBits_of_row (r := ⟨0x20#8, "RX.CLR", .none⟩) (by decide)⟩
  rw [decode_append]
  exact decodeNone_zero 0x20#8 .rxClr

/-- Settles O27: the meaning of the command, its word, and the row of the map for the words refused. -/
theorem rxLenReadsLength : Obligations.RxLenReadsLength := by
  refine ⟨exec_rxLen, ?_, refusesReservedBits_of_row (r := ⟨0x25#8, "RX.LEN", .none⟩) (by decide)⟩
  rw [decode_append]
  exact decodeNone_zero 0x25#8 .rxLen

end

section
/-! PROOFS, 60_exceptions.md R171 to R174. Every outcome answers `OK` or is `raise` on the state it started from
(`OkOrRaised`), so an error changes nothing. The table of R172 is written once, by command (`ErrorCause`), and
`exec_answersByTable` compares each command's meaning with its rows. -/

namespace Sys2Proof.Machine

/-! ### An error changes nothing (R174) -/

/-- An outcome whose next state, if there is one, responds `OK` or is the state before with an error raised. -/
def OkOrRaised (s : State) (o : Host.Outcome State Fault Refusal) : Prop :=
  ∀ t, o = .next t → (∃ d, t.rsp = some ⟨.ok, d⟩) ∨ ∃ st, t = s.answer st 0#64

section
variable (s : State)

theorem okOrRaised_respond (d : Data) (u : State) : OkOrRaised s (respond d u) := by
  rintro t ⟨⟩
  exact .inl ⟨d, rfl⟩

theorem okOrRaised_raise (st : Status) : OkOrRaised s (raise st s) := by
  rintro t ⟨⟩
  exact .inr ⟨st, rfl⟩

variable {s}

/-- An access that fails stops the command, so only what follows a successful access matters. -/
theorem okOrRaised_orFault {α : Type} (r : Except Fault α) {k : α → Host.Outcome State Fault Refusal}
    (h : ∀ a, OkOrRaised s (k a)) : OkOrRaised s (orFault r k) := by
  cases r with
  | error e => rintro t ⟨⟩
  | ok a => exact h a

theorem okOrRaised_ite {p : Prop} [Decidable p] {o o' : Host.Outcome State Fault Refusal} (h : OkOrRaised s o)
    (h' : OkOrRaised s o') : OkOrRaised s (if p then o else o') := by
  split
  · exact h
  · exact h'

variable (s)

theorem okOrRaised_appendBytes (b : BufferId) (bs : List Byte) : OkOrRaised s (appendBytes b bs s) :=
  okOrRaised_orFault _ fun _ => okOrRaised_respond s _ _

theorem okOrRaised_readIndex (b : BufferId) (i : Half) : OkOrRaised s (readIndex b i s) :=
  okOrRaised_ite (okOrRaised_raise s _) (okOrRaised_orFault _ fun _ => okOrRaised_respond s _ _)

theorem okOrRaised_exec (i : Instr) : OkOrRaised s (exec i s) := by
  cases i with
  | crcInit | crcUpd _ | crcRd | txClr | txLen | rxClr | rxLen => exact okOrRaised_respond s _ _
  | txHdr sid slot fn => exact okOrRaised_orFault _ fun _ => okOrRaised_respond s _ _
  | txPut b => exact okOrRaised_ite (okOrRaised_raise s _) (okOrRaised_appendBytes s _ _)
  | txSeal =>
    exact okOrRaised_ite (okOrRaised_raise s _) (okOrRaised_orFault _ fun _ => okOrRaised_appendBytes s _ _)
  | txRd k => exact okOrRaised_readIndex s .tx k
  | rxPut b => exact okOrRaised_ite (okOrRaised_raise s _) (okOrRaised_appendBytes s _ _)
  | rxChk =>
    exact okOrRaised_ite (okOrRaised_respond s _ _) (okOrRaised_orFault _ fun _ => okOrRaised_respond s _ _)
  | rxDec =>
    exact okOrRaised_ite (okOrRaised_raise s _) (okOrRaised_orFault _ fun _ =>
      okOrRaised_ite (okOrRaised_orFault _ fun _ => okOrRaised_respond s _ _) (okOrRaised_raise s _))
  | rxRd k => exact okOrRaised_readIndex s .rx k

theorem runWord_of_ok {w : CommandWord} {i : Instr} (h : decode w = .ok i) : runWord w s = exec i s := by
  rw [runWord, h]

theorem okOrRaised_runWord (w : CommandWord) : OkOrRaised s (runWord w s) := by
  cases h : decode w with
  | ok i =>
    rw [runWord_of_ok s h]
    exact okOrRaised_exec s i
  | error e =>
    rw [runWord_of_error h]
    exact okOrRaised_raise s .illegal

end

/-! ### The table of causes (R172) -/

/-- The rows of R172 for each command that has any: the statuses other than `OK` it can respond with, and when. -/
def ErrorCause (i : Instr) (s : State) (st : Status) : Prop :=
  match i with
  | .txPut _ => st = .overflow ∧ s.cfg.cap < s.txlen.toNat + 3
  | .txSeal => st = .overflow ∧ s.cfg.cap < s.txlen.toNat + 2
  | .txRd k => st = .overflow ∧ s.txlen.toNat ≤ k.toNat
  | .rxPut _ => st = .overflow ∧ s.cfg.cap < s.rxlen.toNat + 1
  | .rxRd k => st = .overflow ∧ s.rxlen.toNat ≤ k.toNat
  | .rxDec => (st = .fault ∧ s.rxlen.toNat < 8) ∨
      (st = .checksumError ∧ 8 ≤ s.rxlen.toNat ∧ ∃ f, Holds s .rx f ∧ ¬ trailerVerifies f)
  | .crcInit | .crcUpd _ | .crcRd | .txClr | .txHdr _ _ _ | .txLen | .rxClr | .rxChk | .rxLen => False

theorem errorCause_overflow_iff (i : Instr) (s : State) :
    ErrorCause i s .overflow ↔
      (∃ b, i = .txPut b ∧ s.txlen.toNat + 3 > s.cfg.cap) ∨ (i = .txSeal ∧ s.txlen.toNat + 2 > s.cfg.cap) ∨
      (∃ k, i = .txRd k ∧ k.toNat ≥ s.txlen.toNat) ∨ (∃ b, i = .rxPut b ∧ s.rxlen.toNat + 1 > s.cfg.cap) ∨
      (∃ k, i = .rxRd k ∧ k.toNat ≥ s.rxlen.toNat) := by
  cases i <;> simp [ErrorCause]

theorem errorCause_fault_iff (i : Instr) (s : State) :
    ErrorCause i s .fault ↔ i = .rxDec ∧ s.rxlen.toNat < 8 := by
  cases i <;> simp [ErrorCause]

theorem errorCause_checksumError_iff (i : Instr) (s : State) :
    ErrorCause i s .checksumError ↔
      i = .rxDec ∧ 8 ≤ s.rxlen.toNat ∧ ∃ f, Holds s .rx f ∧ ¬ trailerVerifies f := by
  cases i <;> simp [ErrorCause]

/-- No command's own meaning answers `ILLEGAL`: that is the decoder's (R173, item 1). -/
theorem not_errorCause_illegal (i : Instr) (s : State) : ¬ ErrorCause i s .illegal := by
  cases i <;> simp [ErrorCause]

/-- A command ends in a response, whose status is an error exactly when the table gives a cause for that error. -/
def AnswersByTable (i : Instr) (s : State) : Prop :=
  ∃ t r, exec i s = .next t ∧ t.rsp = some r ∧ ∀ st, st ≠ .ok → (r.status = st ↔ ErrorCause i s st)

section
variable {i : Instr} {s t : State}

theorem answersByTable_of_ok {d : Data} (h : exec i s = .next t) (hr : t.rsp = some ⟨.ok, d⟩)
    (hno : ∀ st, ¬ ErrorCause i s st) : AnswersByTable i s :=
  ⟨t, _, h, hr, fun st hst => ⟨fun e => absurd e.symm hst, fun hc => absurd hc (hno st)⟩⟩

theorem answersByTable_of_error {st : Status} {d : Data} (h : exec i s = .next (s.answer st d))
    (hc : ∀ st', ErrorCause i s st' ↔ st' = st) : AnswersByTable i s :=
  ⟨_, _, h, rfl, fun st' _ => eq_comm.trans (hc st').symm⟩

/-- A command with one row in the table: its condition decides between the row's error and `OK`. -/
theorem answersByTable_of_row {st : Status} {p : Prop} (hrow : ∀ st', ErrorCause i s st' ↔ st' = st ∧ p)
    (herror : p → exec i s = .next (s.answer st 0#64))
    (hok : ¬ p → ∃ t d, exec i s = .next t ∧ t.rsp = some ⟨.ok, d⟩) : AnswersByTable i s := by
  by_cases hp : p
  · exact answersByTable_of_error (herror hp) fun st' => (hrow st').trans (and_iff_left hp)
  · obtain ⟨t, d, h, hr⟩ := hok hp
    exact answersByTable_of_ok h hr fun st' hc => hp ((hrow st').mp hc).right

theorem readIndex_answersOk {b : BufferId} {k : Half} (hb : BufferInv s b) (hk : ¬ (s.len b).toNat ≤ k.toNat) :
    ∃ t d, readIndex b k s = .next t ∧ t.rsp = some ⟨.ok, d⟩ := by
  obtain ⟨v, -, h⟩ := readIndex_within hb (Nat.lt_of_not_le hk)
  exact ⟨_, _, h, rfl⟩

theorem holds_unique {b : BufferId} {f g : List Byte} (hf : Holds s b f) (hg : Holds s b g) : f = g :=
  Except.ok.inj (hf.right.symm.trans hg.right)

/-- `RX.DEC` has two rows; the length tells them apart (R173, item 2). -/
theorem rxDec_answersByTable (hb : BufferInv s .rx) : AnswersByTable .rxDec s := by
  obtain ⟨f, hf⟩ := hb.exists_holds
  have hlen := hf.rxlen_eq
  have hfails : (∃ g, Holds s .rx g ∧ ¬ trailerVerifies g) ↔ ¬ trailerVerifies f :=
    ⟨fun ⟨g, hg, hv⟩ => holds_unique hg hf ▸ hv, fun hv => ⟨f, hf, hv⟩⟩
  have hrows : ∀ st, ErrorCause .rxDec s st ↔ (st = .fault ∧ f.length < 8) ∨
      (st = .checksumError ∧ 8 ≤ f.length ∧ ¬ trailerVerifies f) := by
    intro st
    rw [ErrorCause, hfails, hlen]
  rcases Nat.lt_or_ge f.length 8 with hshort | h8
  · exact answersByTable_of_error (exec_rxDec_short hf hshort) fun st => by simp [hrows, hshort]
  · have hlong : ¬ f.length < 8 := Nat.not_lt.mpr h8
    by_cases hv : trailerVerifies f
    · obtain ⟨d, -, hexec⟩ := exec_rxDec_verified h8 hf.length_lt hv
      exact answersByTable_of_ok (hexec s hf) rfl fun st => by simp [hrows, hlong, hv]
    · exact answersByTable_of_error (exec_rxDec_unverified hf h8 hv) fun st => by simp [hrows, h8, hlong, hv]

/-- Every command against its rows of R172. -/
theorem exec_answersByTable (hinv : Inv s) (i : Instr) : AnswersByTable i s := by
  cases i with
  | crcInit | crcUpd _ | crcRd | txClr | txLen | rxClr | rxLen => exact answersByTable_of_ok rfl rfl fun _ => id
  | txHdr sid slot fn => exact answersByTable_of_ok (exec_txHdr hinv.config sid slot fn) rfl fun _ => id
  | txPut b =>
    exact answersByTable_of_row (fun _ => Iff.rfl) (fun h => exec_txPut_overflow h b)
      fun h => ⟨_, _, exec_txPut_fits (Nat.le_of_not_lt h) b, rfl⟩
  | txSeal =>
    obtain ⟨bs, hbs⟩ := hinv.transmit.exists_holds
    have hlen : s.txlen.toNat = bs.length := hbs.left
    exact answersByTable_of_row (fun _ => Iff.rfl) exec_txSeal_overflow
      fun h => ⟨_, _, exec_txSeal_fits hbs (by omega), rfl⟩
  | txRd k =>
    exact answersByTable_of_row (fun _ => Iff.rfl) (fun h => readIndex_beyond h) (readIndex_answersOk hinv.transmit)
  | rxPut b =>
    exact answersByTable_of_row (fun _ => Iff.rfl) (fun h => exec_rxPut_overflow h b)
      fun h => ⟨_, _, exec_rxPut_fits (Nat.le_of_not_lt h) b, rfl⟩
  | rxChk =>
    obtain ⟨f, hf⟩ := hinv.receive.exists_holds
    by_cases hv : trailerVerifies f
    · exact answersByTable_of_ok (exec_rxChk_verified hf hv) rfl fun _ => id
    · exact answersByTable_of_ok (exec_rxChk_unverified hf hv) rfl fun _ => id
  | rxDec => exact rxDec_answersByTable hinv.receive
  | rxRd k =>
    exact answersByTable_of_row (fun _ => Iff.rfl) (fun h => readIndex_beyond h) (readIndex_answersOk hinv.receive)

end

/-- The word is judged before any state is looked at (R173, item 1). -/
theorem runWord_illegal_iff {s : State} (hinv : Inv s) (w : CommandWord) :
    ∃ t r, runWord w s = .next t ∧ t.rsp = some r ∧ (r.status = .illegal ↔ w.wellFormed = false) := by
  cases hw : w.wellFormed with
  | false =>
    obtain ⟨e, he⟩ := decode_error_of_illegal (Bool.and_eq_false_iff.mp hw)
    exact ⟨_, _, runWord_of_error he s, rfl, by simp⟩
  | true =>
    obtain ⟨i, hi⟩ := decode_ok_of_wellFormed hw
    obtain ⟨t, r, ht, hr, hst⟩ := exec_answersByTable hinv i
    have hlegal : r.status ≠ .illegal := mt (hst .illegal (by decide)).mp (not_errorCause_illegal i s)
    exact ⟨t, r, (runWord_of_ok s hi).trans ht, hr, by simp [hlegal]⟩

end Sys2Proof.Machine

open Sys2Proof Sys2Proof.Machine

/-- Settles O28: a response other than `OK` was raised, in every state and for every word. -/
theorem errorsChangeNothing : Obligations.ErrorsChangeNothing := by
  intro w s t r ht hr hst
  rcases okOrRaised_runWord s w t ht with ⟨d, hok⟩ | ⟨st, rfl⟩
  · rw [hok] at hr
    cases hr
    exact absurd rfl hst
  · cases hr
    rfl

/-- Settles O29: each command answers by its rows of R172, the decoder alone answers `ILLEGAL`, and an error changes
nothing. -/
theorem statusesHaveTheirCauses : Obligations.StatusesHaveTheirCauses := by
  refine ⟨fun i s hinv => ?_, fun w s hinv => ?_⟩
  · obtain ⟨t, r, ht, hr, hst⟩ := exec_answersByTable hinv i
    exact ⟨t, r, ht, hr, mt (hst .illegal (by decide)).mp (not_errorCause_illegal i s),
      (hst .overflow (by decide)).trans (errorCause_overflow_iff i s),
      (hst .fault (by decide)).trans (errorCause_fault_iff i s),
      (hst .checksumError (by decide)).trans (errorCause_checksumError_iff i s)⟩
  · obtain ⟨t, r, ht, hr, hill⟩ := runWord_illegal_iff hinv w
    exact ⟨t, r, ht, hr, hill, errorsChangeNothing w s t r ht hr⟩

/-- Settles O52: the five codes of R171, and each of the five statuses below 5. -/
theorem statusCodesAreTheTables : Obligations.StatusCodesAreTheTables := by
  refine ⟨rfl, rfl, rfl, rfl, rfl, fun st => ?_⟩
  cases st <;> decide

end

section
/-! PROOFS, 30_encoding.md R68 to R71 and R75: decode and encode agree. Each operand form accepts exactly the operands
that its commands encode to; `decodeOp_eq_ok` carries that through the opcode map once. -/

namespace Sys2Proof

/-! ### The operands each form accepts (R69) -/

theorem decodeNone_eq_ok {op : Byte} {arg : Arg} {i j : Instr} (h : decodeNone op arg i = .ok j) :
    arg = 0#48 ∧ i = j := by
  unfold decodeNone at h
  split at h
  case isTrue harg => exact ⟨harg, Except.ok.inj h⟩
  case isFalse => cases h

theorem decodeByte_eq_ok {op : Byte} {arg : Arg} {i : Byte → Instr} {j : Instr} (h : decodeByte op arg i = .ok j) :
    ∃ b : Byte, arg = b.setWidth 48 ∧ i b = j := by
  unfold decodeByte at h
  split at h
  case isTrue hhigh => exact ⟨_, (setWidth_low_of_high_zero (n := 40) (m := 8) arg hhigh).symm, Except.ok.inj h⟩
  case isFalse => cases h

theorem decodeIndex_eq_ok {op : Byte} {arg : Arg} {i : Half → Instr} {j : Instr} (h : decodeIndex op arg i = .ok j) :
    ∃ k : Half, arg = k.setWidth 48 ∧ i k = j := by
  unfold decodeIndex at h
  split at h
  case isTrue hhigh => exact ⟨_, (setWidth_low_of_high_zero (n := 32) (m := 16) arg hhigh).symm, Except.ok.inj h⟩
  case isFalse => cases h

/-- A header operand is its three fields, function code highest. -/
theorem header_fields_append (arg : Arg) :
    (arg.extractLsb' 40 8 ++ arg.extractLsb' 32 8 ++ arg.extractLsb' 0 32 : Arg) = arg := by
  have hhigh : arg.extractLsb' 40 8 ++ arg.extractLsb' 32 8 = arg.extractLsb' 32 16 :=
    BitVec.extractLsb'_append_extractLsb'_eq_extractLsb' rfl
  rw [hhigh]
  exact append_extract (n := 16) (m := 32) arg

theorem decodeHeader_eq_ok {arg : Arg} {i : ServerId → Byte → Byte → Instr} {j : Instr}
    (h : decodeHeader arg i = .ok j) :
    ∃ (sid : ServerId) (slot fn : Byte), arg = fn ++ slot ++ sid ∧ i sid slot fn = j :=
  ⟨_, _, _, (header_fields_append arg).symm, Except.ok.inj h⟩

/-! ### The opcode map, both ways (R70) -/

theorem decodeOp_of_instr (i : Instr) : decodeOp (opcodeOf i) (operandOf i) = .ok i := by
  cases i with
  | crcInit | crcRd | txClr | txSeal | txLen | rxClr | rxChk | rxDec | rxLen => exact decodeNone_zero _ _
  | crcUpd b | txPut b | rxPut b => exact decodeByte_setWidth _ b _
  | txRd k | rxRd k => exact decodeIndex_setWidth _ k _
  | txHdr sid slot fn => exact decodeHeader_append sid slot fn .txHdr

theorem decodeOp_eq_ok {op : Byte} {arg : Arg} {i : Instr} (h : decodeOp op arg = .ok i) :
    opcodeOf i = op ∧ operandOf i = arg := by
  unfold decodeOp at h
  split at h
  case h_1 | h_3 | h_4 | h_7 | h_9 | h_10 | h_12 | h_13 | h_15 =>
    obtain ⟨rfl, rfl⟩ := decodeNone_eq_ok h
    exact ⟨rfl, rfl⟩
  case h_2 | h_6 | h_11 =>
    obtain ⟨b, rfl, rfl⟩ := decodeByte_eq_ok h
    exact ⟨rfl, rfl⟩
  case h_8 | h_14 =>
    obtain ⟨k, rfl, rfl⟩ := decodeIndex_eq_ok h
    exact ⟨rfl, rfl⟩
  case h_5 =>
    obtain ⟨sid, slot, fn, rfl, rfl⟩ := decodeHeader_eq_ok h
    exact ⟨rfl, rfl⟩
  case h_16 => cases h

theorem decode_encode (i : Instr) : decode (encode i) = .ok i :=
  (decode_append (opcodeOf i) (operandOf i)).trans (decodeOp_of_instr i)

theorem encode_of_decode {w : CommandWord} {i : Instr} (h : decode w = .ok i) : encode i = w := by
  obtain ⟨hop, harg⟩ := decodeOp_eq_ok (decode_eq w ▸ h)
  rw [encode, hop, harg, op_append_arg]

end Sys2Proof

open Sys2Proof Sys2Proof.Machine

/-- Settles O1: the operand forms one by one in `decodeOp_of_instr` and, back again, in `decodeOp_eq_ok`. -/
theorem decodeInvertsEncode : Obligations.DecodeInvertsEncode :=
  ⟨decode_encode, fun _ _ => encode_of_decode⟩

/-- Settles O2: in each of the three cases of `decode_cases` the two checks of R71 and the answer are known. -/
theorem decoderRefusesExactlyIllegalWords : Obligations.DecoderRefusesExactlyIllegalWords := by
  intro w
  rcases decode_cases w with ⟨ha, hd⟩ | ⟨ha, hb, hd⟩ | ⟨ha, hb, i, hd⟩
  · simp [CommandWord.wellFormed, ha, hd]
  · simp [CommandWord.wellFormed, ha, hb, hd]
  · simp [CommandWord.wellFormed, ha, hb, hd]

/-- Settles O3: each word is the encoding of its command, and decoding inverts encoding. -/
theorem writtenOutWordsDecode : Obligations.WrittenOutWordsDecode :=
  ⟨decode_encode (.txHdr 0x12345678#32 0x02#8 0x00#8), decode_encode (.txPut 0xAB#8), decode_encode .crcInit,
    decode_encode (.crcUpd 0x31#8), decode_encode (.txRd 0xFFFF#16), decode_encode .rxDec,
    decode_encode (.rxRd 6#16)⟩

end

section
/-! PROOFS, 40_crc.md R90 to R93 and R95. One shift of the register is linear and one-to-one, both read off from the
register equations of R92 (`crcShift_getLsbD`); the laws of the byte step and of `crc16` follow from these two. -/

namespace Sys2Proof.Machine

/-! ### One shift -/

/-- The polynomial has the bits 15, 13 and 0 (00_scope.md R7). -/
theorem crcPoly_getLsbD {k : Nat} (hk : k < 16) : crcPoly.getLsbD k = decide (k = 15 ∨ k = 13 ∨ k = 0) := by
  interval_cases k <;> rfl

/-- The register equations of R92. -/
theorem crcBit_getLsbD (c : BitVec 16) (d : Bool) {k : Nat} (hk : k < 16) : (crcBit c d).getLsbD k =
    (if k = 15 then c.getLsbD 0 ^^ d
     else if k = 13 ∨ k = 0 then c.getLsbD (k + 1) ^^ (c.getLsbD 0 ^^ d)
     else c.getLsbD (k + 1)) := by
  have hbit : (crcBit c d).getLsbD k = (c.getLsbD (k + 1) ^^ (crcPoly.getLsbD k && (c.getLsbD 0 ^^ d))) := by
    unfold crcBit
    cases c.getLsbD 0 <;> cases d <;> simp [Nat.add_comm 1 k]
  rw [hbit, crcPoly_getLsbD hk]
  by_cases h15 : k = 15
  · simp [h15]
  · by_cases h13 : k = 13 ∨ k = 0 <;> simp [h15, h13]

/-- The shift of R90 is the bit-serial step with a 0 coming in (R92). -/
theorem crcShift_eq_crcBit (c : BitVec 16) : crcShift c = crcBit c false := by
  simp [crcShift, crcBit]

theorem crcShift_getLsbD (c : BitVec 16) {k : Nat} (hk : k < 16) : (crcShift c).getLsbD k =
    (if k = 15 then c.getLsbD 0
     else if k = 13 ∨ k = 0 then c.getLsbD (k + 1) ^^ c.getLsbD 0
     else c.getLsbD (k + 1)) := by
  simp [crcShift_eq_crcBit, crcBit_getLsbD c false hk]

theorem crcShift_xor (x y : BitVec 16) : crcShift (x ^^^ y) = crcShift x ^^^ crcShift y := by
  refine BitVec.eq_of_getLsbD_eq fun k hk => ?_
  rw [BitVec.getLsbD_xor]
  simp only [crcShift_getLsbD _ hk, BitVec.getLsbD_xor]
  split_ifs
  · rfl
  · simp only [Bool.xor_assoc, Bool.xor_left_comm]
  · rfl

/-- Bit 15 after a shift tells bit 0 before it, and with that every other bit can be told. -/
theorem crcShift_injective : Function.Injective crcShift := by
  intro x y h
  have hbit : ∀ k, k < 16 → (crcShift x).getLsbD k = (crcShift y).getLsbD k := fun k _ => by rw [h]
  have h0 : x.getLsbD 0 = y.getLsbD 0 := by
    have h15 := hbit 15 (by omega)
    rwa [crcShift_getLsbD x (by omega), crcShift_getLsbD y (by omega)] at h15
  refine BitVec.eq_of_getLsbD_eq fun k hk => ?_
  cases k with
  | zero => exact h0
  | succ k =>
    have hk15 : k ≠ 15 := by omega
    have hstep := hbit k (by omega)
    rw [crcShift_getLsbD x (by omega), crcShift_getLsbD y (by omega), if_neg hk15, if_neg hk15, h0] at hstep
    split_ifs at hstep
    · exact Bool.xor_left_inj.mp hstep
    · exact hstep

/-! ### A run of shifts -/

@[simp] theorem crcShifts_zero_right (n : Nat) : crcShifts n 0#16 = 0#16 := by
  induction n with
  | zero => rfl
  | succ n ih => exact ih

theorem crcShifts_xor (n : Nat) (x y : BitVec 16) : crcShifts n (x ^^^ y) = crcShifts n x ^^^ crcShifts n y := by
  induction n generalizing x y with
  | zero => rfl
  | succ n ih => simp only [crcShifts, crcShift_xor, ih]

theorem crcShifts_injective (n : Nat) : Function.Injective (crcShifts n) := by
  induction n with
  | zero => exact fun _ _ h => h
  | succ n ih => exact fun _ _ h => crcShift_injective (ih h)

/-- Zeros below shift out without the polynomial. -/
theorem crcShifts_of_low_zero {n : Nat} {x : BitVec 16} (h : ∀ k, k < n → x.getLsbD k = false) :
    crcShifts n x = x >>> n := by
  induction n generalizing x with
  | zero => simp [crcShifts]
  | succ n ih =>
    have hshift : crcShift x = x >>> 1 := by rw [crcShift, h 0 (Nat.zero_lt_succ n), if_neg Bool.false_ne_true]
    have hlow : ∀ k, k < n → (x >>> 1).getLsbD k = false := fun k hk => by
      rw [BitVec.getLsbD_ushiftRight, Nat.add_comm]
      exact h (k + 1) (by omega)
    rw [crcShifts, hshift, ih hlow, ← BitVec.shiftRight_add, Nat.add_comm]

/-- A byte in the high half shifts down unchanged. -/
theorem crcShifts_high_byte (b : Byte) : crcShifts 8 (b.setWidth 16 <<< 8) = b.setWidth 16 := by
  have hlow : ∀ k, k < 8 → (b.setWidth 16 <<< 8).getLsbD k = false := fun k hk => by simp [hk]
  rw [crcShifts_of_low_zero hlow]
  ext k hk
  by_cases h8 : k < 8
  · simp [show 8 + k < 16 by omega]
  · simp [hk, BitVec.getLsbD_of_ge b k (by omega)]

theorem crcShifts_eq_byte_iff (x : BitVec 16) (b : Byte) :
    crcShifts 8 x = b.setWidth 16 ↔ x = b.setWidth 16 <<< 8 := by
  conv_lhs => rw [← crcShifts_high_byte b]
  exact (crcShifts_injective 8).eq_iff

theorem crcShifts_eq_zero_iff (n : Nat) (x : BitVec 16) : crcShifts n x = 0#16 ↔ x = 0#16 := by
  conv_lhs => rw [← crcShifts_zero_right n]
  exact (crcShifts_injective n).eq_iff

/-! ### The two bytes of a register -/

theorem xor_low_byte_iff (c : BitVec 16) (lo hi : Byte) :
    c ^^^ lo.setWidth 16 = hi.setWidth 16 <<< 8 ↔ lo = c.extractLsb' 0 8 ∧ hi = c.extractLsb' 8 8 := by
  constructor
  · intro h
    have hbit : ∀ k, (c ^^^ lo.setWidth 16).getLsbD k = (hi.setWidth 16 <<< 8).getLsbD k := fun k => by rw [h]
    constructor
    · refine BitVec.eq_of_getLsbD_eq fun k hk => ?_
      have hlow : c.getLsbD k = lo.getLsbD k := by simpa [hk, show k < 16 by omega] using hbit k
      simp [hk, hlow]
    · refine BitVec.eq_of_getLsbD_eq fun k hk => ?_
      have hhigh : c.getLsbD (8 + k) = hi.getLsbD k := by simpa [show 8 + k < 16 by omega] using hbit (8 + k)
      simp [hk, hhigh]
  · rintro ⟨rfl, rfl⟩
    refine BitVec.eq_of_getLsbD_eq fun k hk => ?_
    by_cases h8 : k < 8
    · simp [h8, hk]
    · simp [h8, hk, show 8 + (k - 8) = k by omega, show k - 8 < 8 by omega]

/-- A register is its low byte and its high byte. -/
theorem halves_xor (c : BitVec 16) :
    (c.extractLsb' 0 8).setWidth 16 ^^^ (c.extractLsb' 8 8).setWidth 16 <<< 8 = c := by
  rw [← (xor_low_byte_iff c _ _).mpr ⟨rfl, rfl⟩, BitVec.xor_comm c, ← BitVec.xor_assoc, BitVec.xor_self,
    BitVec.zero_xor]

/-! ### The byte step (R93 (b), (c)) -/

theorem crcStep_injective_register (b : Byte) : Function.Injective fun c => crcStep c b := fun _ _ h =>
  (BitVec.xor_left_inj _).mp (crcShifts_injective 8 h)

theorem crcStep_injective_byte (c : BitVec 16) : Function.Injective (crcStep c) := fun b b' h => by
  have hwide : b.setWidth 16 = b'.setWidth 16 := (BitVec.xor_right_inj _).mp (crcShifts_injective 8 h)
  simpa using congrArg (BitVec.setWidth 8) hwide

theorem crcStep_xor (c c' : BitVec 16) (b b' : Byte) :
    crcStep (c ^^^ c') (b ^^^ b') = crcStep c b ^^^ crcStep c' b' := by
  have hregroup : (c ^^^ c') ^^^ (b ^^^ b').setWidth 16 = (c ^^^ b.setWidth 16) ^^^ (c' ^^^ b'.setWidth 16) := by
    rw [BitVec.setWidth_xor]
    ac_rfl
  rw [crcStep, hregroup, crcShifts_xor]
  rfl

theorem crcStep_zero_byte (c : BitVec 16) : crcStep c 0#8 = crcShifts 8 c := by
  rw [crcStep, BitVec.setWidth_zero, BitVec.xor_zero]

/-! ### The bit-serial form (R92) -/

/-- A byte still to come, exclusive-ored into the register, shifts along with it. -/
theorem crcShift_xor_byte (c : BitVec 16) (b : Byte) :
    crcShift (c ^^^ b.setWidth 16) = crcBit c (b.getLsbD 0) ^^^ (b >>> 1).setWidth 16 := by
  have hshift : (c ^^^ b.setWidth 16) >>> 1 = c >>> 1 ^^^ (b >>> 1).setWidth 16 := by
    ext k hk
    simp
  have hbit : (c ^^^ b.setWidth 16).getLsbD 0 = (c.getLsbD 0 ^^ b.getLsbD 0) := by simp
  rw [crcShift, hshift, hbit, crcBit]
  split
  · rw [BitVec.xor_assoc, BitVec.xor_comm _ crcPoly, ← BitVec.xor_assoc]
  · rfl

/-- After `n` shifts the bits of the byte below `n` have come in and the others are still to come. -/
theorem crcShifts_xor_byte (n : Nat) (c : BitVec 16) (b : Byte) :
    crcShifts n (c ^^^ b.setWidth 16) =
      ((List.range n).map b.getLsbD).foldl crcBit c ^^^ (b >>> n).setWidth 16 := by
  induction n generalizing c b with
  | zero => simp [crcShifts]
  | succ n ih =>
    have hbits : (List.range n).map (b >>> 1).getLsbD = ((List.range n).map Nat.succ).map b.getLsbD := by
      simp [Function.comp_def, Nat.add_comm]
    rw [crcShifts, crcShift_xor_byte, ih, hbits, ← BitVec.shiftRight_add, Nat.add_comm 1 n, List.range_succ_eq_map]
    rfl

theorem crcStepSerial_eq_crcStep (c : BitVec 16) (b : Byte) : crcStepSerial c b = crcStep c b := by
  have hgone : (b >>> 8).setWidth 16 = 0#16 := by rw [BitVec.ushiftRight_eq_zero (Nat.le_refl 8), BitVec.setWidth_zero]
  rw [crcStep, crcShifts_xor_byte, hgone, BitVec.xor_zero]
  rfl

/-! ### The fixed points of the step with a zero byte (R95) -/

/-- What the high byte of a fixed point must be, given its low byte. -/
def highByteFor (lo : Byte) : Byte := (crcShifts 8 (lo.setWidth 16)).extractLsb' 8 8

theorem fixed_low_byte : ∀ lo : Byte, (crcShifts 8 (lo.setWidth 16)).extractLsb' 0 8 ^^^ highByteFor lo = lo →
    lo = 0x00#8 ∨ lo = 0x01#8 := by
  decide +kernel

/-- The zero-byte step shifts the high byte down unchanged. -/
theorem crcStep_zero_byte_eq (c : BitVec 16) :
    crcStep c 0#8 = crcShifts 8 ((c.extractLsb' 0 8).setWidth 16) ^^^ (c.extractLsb' 8 8).setWidth 16 := by
  conv_lhs => rw [← halves_xor c, crcStep_zero_byte, crcShifts_xor, crcShifts_high_byte]

theorem xor_byte_extract_high (x : BitVec 16) (b : Byte) :
    (x ^^^ b.setWidth 16).extractLsb' 8 8 = x.extractLsb' 8 8 := by
  ext k hk
  simp

theorem xor_byte_extract_low (x : BitVec 16) (b : Byte) :
    (x ^^^ b.setWidth 16).extractLsb' 0 8 = x.extractLsb' 0 8 ^^^ b := by
  ext k hk
  simp [hk, show k < 16 by omega]

/-- The high byte of a fixed point follows from the low byte, which leaves two low bytes. -/
theorem crcStep_zero_byte_fixed_iff (c : BitVec 16) :
    crcStep c 0x00#8 = c ↔ c = 0x0000#16 ∨ c = 0xC001#16 := by
  constructor
  · intro h
    rw [crcStep_zero_byte_eq] at h
    have hhigh : highByteFor (c.extractLsb' 0 8) = c.extractLsb' 8 8 := by
      rw [highByteFor, ← xor_byte_extract_high _ (c.extractLsb' 8 8), h]
    have hlow : (crcShifts 8 ((c.extractLsb' 0 8).setWidth 16)).extractLsb' 0 8 ^^^ highByteFor (c.extractLsb' 0 8) =
        c.extractLsb' 0 8 := by
      rw [hhigh, ← xor_byte_extract_low, h]
    rw [← halves_xor c, ← hhigh]
    rcases fixed_low_byte _ hlow with h0 | h1
    · rw [h0]
      exact .inl (by decide)
    · rw [h1]
      exact .inr (by decide)
  · rintro (rfl | rfl) <;> decide

/-! ### The checksum (R91, R93 (a), (d), (e)) -/

theorem crc16_append (xs ys : List Byte) : crc16 (xs ++ ys) = crcFrom (crc16 xs) ys := List.foldl_append

theorem crcFrom_injective_register (bs : List Byte) : Function.Injective fun c => crcFrom c bs := by
  induction bs with
  | nil => exact fun _ _ h => h
  | cons b bs ih => exact fun _ _ h => crcStep_injective_register b (ih h)

/-- Two bytes bring a register to 0 exactly when they are its own, low byte first. -/
theorem crcStep_crcStep_eq_zero_iff (c : BitVec 16) (lo hi : Byte) :
    crcStep (crcStep c lo) hi = 0#16 ↔ lo = c.extractLsb' 0 8 ∧ hi = c.extractLsb' 8 8 := by
  calc crcStep (crcStep c lo) hi = 0#16
      ↔ crcStep c lo ^^^ hi.setWidth 16 = 0#16 := crcShifts_eq_zero_iff 8 _
    _ ↔ crcStep c lo = hi.setWidth 16 := BitVec.xor_eq_zero_iff
    _ ↔ c ^^^ lo.setWidth 16 = hi.setWidth 16 <<< 8 := crcShifts_eq_byte_iff _ hi
    _ ↔ lo = c.extractLsb' 0 8 ∧ hi = c.extractLsb' 8 8 := xor_low_byte_iff c lo hi

theorem crc16_with_trailer_eq_zero_iff (bs : List Byte) (lo hi : Byte) :
    crc16 (bs ++ [lo, hi]) = 0#16 ↔ lo = (crc16 bs).extractLsb' 0 8 ∧ hi = (crc16 bs).extractLsb' 8 8 := by
  rw [crc16_append]
  exact crcStep_crcStep_eq_zero_iff (crc16 bs) lo hi

theorem flipped_bit_ne (b : Byte) {k : Nat} (hk : k < 8) : b ^^^ (1#8 <<< k) ≠ b := by
  intro h
  have hbit := congrArg (fun v => BitVec.getLsbD v k) h
  simp [hk] at hbit

/-- The flipped bit changes the register after its byte, and no later byte undoes that. -/
theorem crc16_ne_of_differInOneBit {f g : List Byte} (h : DifferInOneBit f g) : crc16 f ≠ crc16 g := by
  obtain ⟨before, b, after, k, hk, rfl, rfl⟩ := h
  rw [crc16_append, crc16_append]
  intro heq
  have hstep : crcStep (crc16 before) b = crcStep (crc16 before) (b ^^^ (1#8 <<< k)) :=
    crcFrom_injective_register after heq
  exact flipped_bit_ne b hk (crcStep_injective_byte _ hstep).symm

/-! ### The command (R95) -/

theorem exec_crcUpd (b : Byte) (s : State) :
    exec (.crcUpd b) s = .next ({ s with crc := crcStep s.crc b }.answer .ok 0#64) := rfl

end Sys2Proof.Machine

open Sys2Proof Sys2Proof.Machine

/-- Settles O14: the meaning of the command, its word, the row of the map for the words refused, and two values of the
byte step. -/
theorem crcUpdFoldsOneByte : Obligations.CrcUpdFoldsOneByte := by
  refine ⟨exec_crcUpd, fun b => decode_encode (.crcUpd b),
    refusesReservedBits_of_row (r := ⟨0x02#8, "CRC.UPD", .byte⟩) (by decide), by decide, by decide⟩

/-- Settles O34: the byte's bits come in one at a time (`crcShifts_xor_byte`), each by the register equations. -/
theorem bitSerialFormIsCrcStep : Obligations.BitSerialFormIsCrcStep :=
  ⟨crcStepSerial_eq_crcStep, fun c d _ hk => crcBit_getLsbD c d hk⟩

/-- Settles O35: two bytes bring the register to 0 exactly when they are its own. -/
theorem checksumResidueIsZero : Obligations.ChecksumResidueIsZero := crc16_with_trailer_eq_zero_iff

/-- Settles O36: a shift is one-to-one, and so is the exclusive-or before the shifts. -/
theorem crcStepIsInjective : Obligations.CrcStepIsInjective :=
  ⟨fun b _ _ h => crcStep_injective_register b h, fun c _ _ h => crcStep_injective_byte c h⟩

/-- Settles O37: a shift is linear. -/
theorem crcStepIsLinear : Obligations.CrcStepIsLinear := by
  refine ⟨crcStep_xor, fun c b => ?_⟩
  rw [crcStep_zero_byte]
  rfl

/-- Settles O38: the step is one-to-one in the byte that differs, and in the register for the bytes after it. -/
theorem oneBitChangesChecksum : Obligations.OneBitChangesChecksum := fun _ _ => crc16_ne_of_differInOneBit

/-- Settles O39: `crc16` is a fold. -/
theorem checksumIsIncremental : Obligations.ChecksumIsIncremental := ⟨crc16_append, rfl⟩

/-- Settles O40: the two bytes of a fixed point determine each other (`highByteFor`). -/
theorem zeroByteFixedPoints : Obligations.ZeroByteFixedPoints := crcStep_zero_byte_fixed_iff

end

section
/-! PROOFS, 10_state.md R21 to R24, 20_memory.md R46, 70_reset_and_hazards.md R195, R196. Two facts over all commands:
the response still pending has no influence on a command (`exec_withRsp`), and a command ends in one of five kinds of
state (`exec_ending`). What a command may write, and which commands repeat, are read off from these. -/

namespace Sys2Proof.Machine

/-! ### The pending response has no influence -/

/-- The state with the response channel replaced. -/
def State.withRsp (s : State) (r : Option Response) : State := { s with rsp := r }

section
variable (s : State) (r : Option Response) (b : BufferId)

theorem takeResponse_eq_withRsp : takeResponse s = s.withRsp none := rfl

@[simp] theorem State.withRsp_buf : (s.withRsp r).buf b = s.buf b := by cases b <;> rfl

@[simp] theorem State.withRsp_len : (s.withRsp r).len b = s.len b := by cases b <;> rfl

@[simp] theorem State.withRsp_setLen_answer (n : Half) (st : Status) (d : Data) :
    ((s.withRsp r).setLen n b).answer st d = (s.setLen n b).answer st d := by cases b <;> rfl

@[simp] theorem memRead_withRsp (a : Nat) : memRead (s.withRsp r) b a = memRead s b a :=
  memRead_congr rfl (by rw [State.withRsp_buf])

@[simp] theorem readBytes_withRsp (a n : Nat) : readBytes (s.withRsp r) b a n = readBytes s b a n :=
  readBytes_congr rfl fun i _ _ => by rw [State.withRsp_buf]

theorem memWrite_withRsp (a : Nat) (v : Byte) :
    memWrite b a v (s.withRsp r) = (memWrite b a v s).map fun t => t.withRsp r := by
  unfold memWrite
  rw [apply_ite (Except.map fun t : State => t.withRsp r)]
  cases b <;> rfl

theorem storeBytes_withRsp (a : Nat) (vs : List Byte) :
    storeBytes b a vs (s.withRsp r) = (storeBytes b a vs s).map fun t => t.withRsp r := by
  induction vs generalizing a s with
  | nil => rfl
  | cons v vs ih =>
    simp only [storeBytes, memWrite_withRsp]
    cases memWrite b a v s with
    | error e => rfl
    | ok t => exact ih t (a + 1)

theorem orFault_map {α β : Type} (f : α → β) (x : Except Fault α) (k : β → Host.Outcome State Fault Refusal) :
    orFault (x.map f) k = orFault x fun a => k (f a) := by
  cases x <;> rfl

theorem appendBytes_withRsp (bs : List Byte) : appendBytes b bs (s.withRsp r) = appendBytes b bs s := by
  simp only [appendBytes, State.withRsp_len, storeBytes_withRsp, orFault_map, respond, State.withRsp_setLen_answer]

theorem readIndex_withRsp (k : Half) : readIndex b k (s.withRsp r) = readIndex b k s := by
  have hbeyond : beyondLength (s.withRsp r) b k = beyondLength s b k := by
    rw [beyondLength, State.withRsp_len, beyondLength]
  simp only [readIndex, hbeyond, memRead_withRsp]
  rfl

theorem trailerMatches_withRsp : trailerMatches (s.withRsp r) = trailerMatches s := by
  simp only [trailerMatches, readBytes_withRsp, memRead_withRsp]
  rfl

theorem parseHeader_withRsp : parseHeader (s.withRsp r) = parseHeader s := by
  simp only [parseHeader, memRead_withRsp]
  rfl

/-- Every command does the same whatever response is pending, since its own response replaces it. -/
theorem exec_withRsp (i : Instr) : exec i (s.withRsp r) = exec i s := by
  cases i with
  | crcInit | crcUpd _ | crcRd | txClr | txLen | rxClr | rxLen => rfl
  | txHdr sid slot fn =>
    simp only [exec, execTxHdr, storeBytes_withRsp, orFault_map, respond, State.withRsp_setLen_answer]
  | txPut v | rxPut v =>
    simp only [exec, execTxPut, execRxPut, appendBytes_withRsp]
    rfl
  | txSeal =>
    simp only [exec, execTxSeal, appendBytes_withRsp, readBytes_withRsp]
    rfl
  | txRd k | rxRd k => exact readIndex_withRsp s r _ k
  | rxChk =>
    simp only [exec, execRxChk, trailerMatches_withRsp]
    rfl
  | rxDec =>
    simp only [exec, execRxDec, trailerMatches_withRsp, parseHeader_withRsp]
    rfl

end

/-! ### The states a command can end in -/

/-- The commands that write a buffer or its length (10_state.md R22, R23). -/
def writesBuffer : BufferId → Instr → Bool
  | .tx => writesTransmit
  | .rx => writesReceive

/-- The state after a buffer is emptied and that is answered (41_encoder.md R111, 42_decoder.md R131). -/
def cleared (b : BufferId) (s : State) : State := (s.setLen 0#16 b).answer .ok 0#64

theorem cleared_onlyBufferChanges (b : BufferId) (s : State) : OnlyBufferChanges b s (cleared b s) where
  cfg := by simp [cleared]
  crc := by simp [cleared]
  inputs := by simp [cleared]
  other b' hb := ⟨by simp [cleared], by simp [cleared, State.setLen_len_other _ _ _ _ hb]⟩

/-- The next states of a command: only an answer, a new `CRC`, an emptied buffer, a header placed, or bytes appended
to a buffer with room for them. -/
inductive Ending (i : Instr) (s : State) : State → Prop
  | answered (st : Status) (d : Data) (hdata : st ≠ .ok → d = 0#64) : Ending i s (s.answer st d)
  | crcSet (c : Half) (hwrites : writesCrc i = true) : Ending i s ({ s with crc := c }.answer .ok 0#64)
  | cleared (b : BufferId) (hwrites : writesBuffer b i = true) : Ending i s (cleared b s)
  | headerPlaced (sid : ServerId) (slot fn : Byte) (hinstr : i = .txHdr sid slot fn) :
      Ending i s (headerPlaced sid slot fn s)
  | appended (b : BufferId) (bs : List Byte) (hwrites : writesBuffer b i = true)
      (hfit : (s.len b).toNat + bs.length ≤ s.cfg.cap) : Ending i s (appended b bs s)

/-- An outcome whose next state, if there is one, is an ending of the command. -/
def EndsWell (i : Instr) (s : State) (o : Host.Outcome State Fault Refusal) : Prop :=
  ∀ t, o = .next t → Ending i s t

section
variable {i : Instr} {s : State}

theorem endsWell_respond (d : Data) : EndsWell i s (respond d s) := by
  rintro t ⟨⟩
  exact .answered .ok d fun h => absurd rfl h

theorem endsWell_raise (st : Status) : EndsWell i s (raise st s) := by
  rintro t ⟨⟩
  exact .answered st 0#64 fun _ => rfl

theorem endsWell_orFault {α : Type} {r : Except Fault α} {k : α → Host.Outcome State Fault Refusal}
    (h : ∀ a, r = .ok a → EndsWell i s (k a)) : EndsWell i s (orFault r k) := by
  cases r with
  | error e => rintro t ⟨⟩
  | ok a => exact h a rfl

theorem endsWell_ite {p : Prop} [Decidable p] {o o' : Host.Outcome State Fault Refusal} (h : p → EndsWell i s o)
    (h' : ¬ p → EndsWell i s o') : EndsWell i s (if p then o else o') := by
  split
  case isTrue hp => exact h hp
  case isFalse hp => exact h' hp

theorem endsWell_clearBuffer {b : BufferId} (hw : writesBuffer b i = true) : EndsWell i s (clearBuffer b s) := by
  rintro t ⟨⟩
  exact .cleared b hw

/-- The room a command tests for is enough for the bytes it appends. -/
theorem endsWell_appendBytes {b : BufferId} {bs : List Byte} {n : Nat} (hw : writesBuffer b i = true)
    (hroom : ¬ lacksRoom s b n = true) (hlen : bs.length ≤ n) : EndsWell i s (appendBytes b bs s) := by
  intro t ht
  rw [lacksRoom_eq_true] at hroom
  rw [appendBytes_next ht]
  exact .appended b bs hw (by omega)

theorem endsWell_readIndex (b : BufferId) (k : Half) : EndsWell i s (readIndex b k s) :=
  endsWell_ite (fun _ => endsWell_raise _) fun _ => endsWell_orFault fun _ _ => endsWell_respond _

theorem endsWell_crcSet {c : Half} (hw : writesCrc i = true) : EndsWell i s (respond 0#64 { s with crc := c }) := by
  rintro t ⟨⟩
  exact .crcSet c hw

theorem endsWell_txHdr (sid : ServerId) (slot fn : Byte) : EndsWell (.txHdr sid slot fn) s (execTxHdr sid slot fn s) :=
  endsWell_orFault fun u hu t ht => by
    rw [storeBytes_eq_ok hu] at ht
    cases ht
    exact .headerPlaced sid slot fn rfl

theorem exec_endsWell (i : Instr) : EndsWell i s (exec i s) := by
  cases i with
  | crcInit | crcUpd _ => exact endsWell_crcSet rfl
  | crcRd | txLen | rxLen => exact endsWell_respond _
  | txClr | rxClr => exact endsWell_clearBuffer rfl
  | txHdr sid slot fn => exact endsWell_txHdr sid slot fn
  | txPut v =>
    exact endsWell_ite (fun _ => endsWell_raise _) fun h => endsWell_appendBytes rfl h (Nat.le_add_left 1 2)
  | txSeal =>
    exact endsWell_ite (fun _ => endsWell_raise _) fun h => endsWell_orFault fun _ _ =>
      endsWell_appendBytes rfl h (Nat.le_refl 2)
  | rxPut v =>
    exact endsWell_ite (fun _ => endsWell_raise _) fun h => endsWell_appendBytes rfl h (Nat.le_refl 1)
  | txRd k | rxRd k => exact endsWell_readIndex _ k
  | rxChk => exact endsWell_ite (fun _ => endsWell_respond _) fun _ => endsWell_orFault fun _ _ => endsWell_respond _
  | rxDec =>
    exact endsWell_ite (fun _ => endsWell_raise _) fun _ => endsWell_orFault fun _ _ =>
      endsWell_ite (fun _ => endsWell_orFault fun _ _ => endsWell_respond _) fun _ => endsWell_raise _

variable {t : State}

theorem exec_ending (h : exec i s = .next t) : Ending i s t := exec_endsWell i t h

/-! ### What an ending leaves alone -/

/-- An ending changes the response and at most one of: `CRC`, by a command that writes it; a buffer with its length,
by a command that writes it. -/
theorem Ending.frame (h : Ending i s t) :
    (∃ st d, t = s.answer st d) ∨ (writesCrc i = true ∧ ∃ c, t = { s with crc := c }.answer .ok 0#64) ∨
    ∃ b, writesBuffer b i = true ∧ OnlyBufferChanges b s t := by
  cases h with
  | answered st d _ => exact .inl ⟨st, d, rfl⟩
  | crcSet c hw => exact .inr (.inl ⟨hw, c, rfl⟩)
  | cleared b hw => exact .inr (.inr ⟨b, hw, cleared_onlyBufferChanges b s⟩)
  | headerPlaced sid slot fn hi =>
    exact .inr (.inr ⟨.tx, hi ▸ rfl, headerPlaced_onlyBufferChanges sid slot fn s⟩)
  | appended b bs hw _ => exact .inr (.inr ⟨b, hw, appended_onlyBufferChanges b bs s⟩)

theorem Ending.cfg_inputs (h : Ending i s t) : t.cfg = s.cfg ∧ t.inputs = s.inputs := by
  rcases h.frame with ⟨st, d, rfl⟩ | ⟨-, c, rfl⟩ | ⟨b, -, hb⟩
  · exact ⟨rfl, rfl⟩
  · exact ⟨rfl, rfl⟩
  · exact ⟨hb.cfg, hb.inputs⟩

theorem Ending.crc_eq (h : Ending i s t) (hw : writesCrc i = false) : t.crc = s.crc := by
  rcases h.frame with ⟨st, d, rfl⟩ | ⟨hw', -⟩ | ⟨b, -, hb⟩
  · rfl
  · rw [hw] at hw'
    cases hw'
  · exact hb.crc

theorem Ending.sameBuffer (h : Ending i s t) {b : BufferId} (hw : writesBuffer b i = false) : SameBuffer b s t := by
  rcases h.frame with ⟨st, d, rfl⟩ | ⟨-, c, rfl⟩ | ⟨b', hw', hb⟩
  · exact ⟨State.answer_buf s b st d, State.answer_len s b st d⟩
  · cases b <;> exact ⟨rfl, rfl⟩
  · refine hb.other b fun e => ?_
    rw [e, hw'] at hw
    cases hw

/-- A command that writes nothing only answers. -/
theorem Ending.eq_answer (h : Ending i s t) (hcrc : writesCrc i = false) (htx : writesTransmit i = false)
    (hrx : writesReceive i = false) : ∃ st d, t = s.answer st d := by
  rcases h.frame with ha | ⟨hw, -⟩ | ⟨b, hw, -⟩
  · exact ha
  · rw [hcrc] at hw
    cases hw
  · have hno : writesBuffer b i = false := by
      cases b
      · exact htx
      · exact hrx
    rw [hno] at hw
    cases hw

end

/-! ### A buffer's list is determined by its bytes (log 2) -/

theorem Memory.mem_iff_read {m : Memory} (hwf : Memory.wf m) (a : Nat) (v : Byte) :
    (a, v) ∈ m ↔ Memory.read m a = some v := by
  induction m with
  | nil => simp
  | cons cell rest ih =>
    obtain ⟨k, w⟩ := cell
    obtain ⟨hk, hrest⟩ := List.pairwise_cons.mp hwf
    rw [List.mem_cons, ih hrest, Memory.read]
    by_cases ha : k = a
    · subst ha
      have hnone : ¬ Memory.read rest k = some v := fun hr => Nat.lt_irrefl k (hk _ ((ih hrest).mpr hr))
      simp [hnone, eq_comm]
    · simp [ha, Ne.symm ha]

theorem Memory.ext_read {m m' : Memory} (hwf : Memory.wf m) (hwf' : Memory.wf m')
    (h : ∀ a, Memory.read m a = Memory.read m' a) : m = m' := by
  have hirrefl : Std.Irrefl fun x y : Host.Cell => x.1 < y.1 := ⟨fun x => Nat.lt_irrefl x.1⟩
  refine hwf.eq_of_mem_iff hwf' fun cell => ?_
  obtain ⟨a, v⟩ := cell
  rw [Memory.mem_iff_read hwf, Memory.mem_iff_read hwf', h]

theorem Memory.writeBytes_writeBytes_self {m : Memory} (hwf : Memory.wf m) (a : Nat) (vs : List Byte) :
    Memory.writeBytes (Memory.writeBytes m a vs) a vs = Memory.writeBytes m a vs := by
  have hwf' := Memory.writeBytes_wf m a vs hwf
  refine Memory.ext_read (Memory.writeBytes_wf _ a vs hwf') hwf' fun b => ?_
  rw [Memory.read_writeBytes]
  split
  case isTrue h => rw [Memory.read_writeBytes, if_pos h]
  case isFalse => rfl

theorem headerPlaced_headerPlaced {s : State} (hwf : Memory.wf s.txb) (sid : ServerId) (slot fn : Byte) :
    headerPlaced sid slot fn (headerPlaced sid slot fn s) = headerPlaced sid slot fn s := by
  rw [headerPlaced, headerPlaced_txb, Memory.writeBytes_writeBytes_self hwf]
  rfl

end Sys2Proof.Machine

open Sys2Proof Sys2Proof.Machine

/-- Settles O30: a command that completes ends in one of the five kinds of state, each with its frame. -/
theorem onlyOwnCommandsWrite : Obligations.OnlyOwnCommandsWrite := by
  intro i s t h
  have hend := exec_ending h
  obtain ⟨hcfg, hinputs⟩ := hend.cfg_inputs
  exact ⟨hcfg, hinputs, hend.crc_eq, hend.sameBuffer (b := .tx), hend.sameBuffer (b := .rx)⟩

/-- Settles O31: a command that writes nothing only answers, and its answer does not look at the one before; the
setting commands set the same values again, `TX.HDR` because the buffer's list has one form. -/
theorem readsRepeatAndSettersAreIdempotent : Obligations.ReadsRepeatAndSettersAreIdempotent := by
  refine ⟨fun i s t hcrc htx hrx h => ?_, fun i s t hinv hset h => ?_⟩
  · obtain ⟨st, d, rfl⟩ := (exec_ending h).eq_answer hcrc htx hrx
    exact ⟨rfl, (exec_withRsp s (some ⟨st, d⟩) i).trans h⟩
  · cases i with
    | crcInit | txClr | rxClr =>
      cases h
      rfl
    | txHdr sid slot fn =>
      rw [exec_txHdr hinv.config] at h
      cases h
      have hcfg : (headerPlaced sid slot fn s).cfg.Valid := hinv.config
      rw [exec_txHdr hcfg, headerPlaced_headerPlaced hinv.transmit.wf]
    | crcUpd _ | crcRd | txPut _ | txSeal | txRd _ | txLen | rxPut _ | rxChk | rxDec | rxRd _ | rxLen => cases hset

end

section
/-! PROOFS, 10_state.md R29 to R31, 60_exceptions.md R183, 70_reset_and_hazards.md R190, R191, R199, R200: the step.
A command keeps the invariant because each of its endings does (`Ending.inv`); `step_keeps` says once what a step
from a state that obeys the invariant does. -/

namespace Sys2Proof.Machine

/-! ### The bytes a buffer holds after a command -/

section
variable {s t : State} {b : BufferId} {bs : List Byte}

theorem holds_answer_iff (st : Status) (d : Data) : Holds (s.answer st d) b bs ↔ Holds s b bs := by
  simp only [holds_iff, State.answer_len, State.answer_buf, State.answer_cfg]

theorem cleared_holds (b : BufferId) (s : State) : Holds (cleared b s) b [] := by
  simp [holds_iff, cleared]

theorem headerBytes_length (sid : ServerId) (slot fn : Byte) : (headerBytes sid slot fn).length = 6 := rfl

theorem headerPlaced_holds (hv : s.cfg.Valid) (sid : ServerId) (slot fn : Byte) :
    Holds (headerPlaced sid slot fn s) .tx (headerBytes sid slot fn) := by
  obtain ⟨hcap, -⟩ := hv
  refine holds_iff.mpr ⟨rfl, fun k hk => ?_⟩
  rw [headerBytes_length] at hk
  have hcfg := (headerPlaced_onlyBufferChanges sid slot fn s).cfg
  exact ⟨by rw [hcfg]; omega, headerPlaced_read sid slot fn s hk⟩

theorem appended_holds (hv : s.cfg.Valid) (hs : Holds s b bs) (vs : List Byte)
    (hfit : bs.length + vs.length ≤ s.cfg.cap) : Holds (appended b vs s) b (bs ++ vs) := by
  obtain ⟨hlen, hbytes⟩ := holds_iff.mp hs
  refine holds_iff.mpr ⟨?_, fun k hk => ?_⟩
  · rw [appended_len_toNat hv (by omega), hlen, List.length_append]
  · rw [List.length_append] at hk
    rw [appended_cfg]
    refine ⟨by omega, ?_⟩
    rcases Nat.lt_or_ge k bs.length with hold | hnew
    · rw [List.getElem?_append_left hold, appended_sameBytesOutside b vs s k (.inl (by omega))]
      exact (hbytes k hold).right
    · obtain ⟨j, rfl⟩ := Nat.exists_eq_add_of_le hnew
      rw [List.getElem?_append_right hnew, Nat.add_sub_cancel_left, ← hlen]
      exact appended_read (by omega)

/-! ### The invariant, buffer by buffer -/

/-- A buffer that holds known bytes obeys R29 when its list does. -/
theorem BufferInv.of_holds (h : Holds s b bs) (hwf : Memory.wf (s.buf b))
    (hin : ∀ cell ∈ s.buf b, cell.1 < s.cfg.cap) :
    BufferInv s b := by
  obtain ⟨hlen, hbytes⟩ := holds_iff.mp h
  refine ⟨?_, fun k hk => ?_, hwf, hin⟩
  · rw [hlen]
    by_contra hlong
    exact Nat.lt_irrefl _ (hbytes s.cfg.cap (by omega)).left
  · have hk' : k < bs.length := by omega
    rw [(hbytes k hk').right, List.getElem?_eq_getElem hk']
    rfl

/-- R29 speaks of the capacity, the buffer and its length only. -/
theorem BufferInv.of_same (h : BufferInv s b) (hcfg : t.cfg = s.cfg) (hsame : SameBuffer b s t) : BufferInv t b := by
  obtain ⟨hbuf, hlen⟩ := hsame
  exact ⟨by rw [hlen, hcfg]; exact h.len_le, by rw [hlen, hbuf]; exact h.written, by rw [hbuf]; exact h.wf,
    by rw [hbuf, hcfg]; exact h.inside⟩

theorem bufferInv_empty (hbuf : s.buf b = []) (hlen : s.len b = 0#16) : BufferInv s b :=
  .of_holds (bs := []) (holds_iff.mpr ⟨by rw [hlen]; rfl, fun _ h => absurd h (Nat.not_lt_zero _)⟩)
    (by rw [hbuf]; exact .nil) (by simp [hbuf])

theorem bufferInv_cleared (h : BufferInv s b) : BufferInv (cleared b s) b :=
  .of_holds (cleared_holds b s) (by simpa [cleared] using h.wf) (by simpa [cleared] using h.inside)

theorem bufferInv_headerPlaced (hv : s.cfg.Valid) (h : BufferInv s .tx) (sid : ServerId) (slot fn : Byte) :
    BufferInv (headerPlaced sid slot fn s) .tx := by
  have hfit : 0 + (headerBytes sid slot fn).length ≤ s.cfg.cap := by
    obtain ⟨hcap, -⟩ := hv
    rw [headerBytes_length]
    omega
  refine .of_holds (headerPlaced_holds hv sid slot fn) ?_ ?_
  · rw [State.buf_tx, headerPlaced_txb]
    exact Memory.writeBytes_wf _ _ _ h.wf
  · rw [State.buf_tx, headerPlaced_txb, (headerPlaced_onlyBufferChanges sid slot fn s).cfg]
    exact Memory.writeBytes_inside _ _ _ hfit h.inside

theorem bufferInv_appended (hv : s.cfg.Valid) (h : BufferInv s b) (vs : List Byte)
    (hfit : (s.len b).toNat + vs.length ≤ s.cfg.cap) : BufferInv (appended b vs s) b := by
  obtain ⟨bs, hs⟩ := h.exists_holds
  refine .of_holds (appended_holds hv hs vs (by rw [← hs.left]; exact hfit)) ?_ ?_
  · rw [appended_buf]
    exact Memory.writeBytes_wf _ _ _ h.wf
  · rw [appended_buf, appended_cfg]
    exact Memory.writeBytes_inside _ _ _ hfit h.inside

/-! ### The invariant of the whole state -/

theorem Inv.buffer (h : Inv s) (b : BufferId) : BufferInv s b := by
  cases b
  · exact h.transmit
  · exact h.receive

theorem inv_of_buffers (hv : s.cfg.Valid) (hb : ∀ b, BufferInv s b) (hr : ResponseInv s) : Inv s :=
  ⟨hv, hb .tx, hb .rx, hr⟩

theorem responseInv_of_rsp {st : Status} {d : Data} (h : s.rsp = some ⟨st, d⟩) (hdata : st ≠ .ok → d = 0#64) :
    ResponseInv s := by
  intro r hr hst
  rw [h] at hr
  cases hr
  exact hdata hst

theorem responseInv_of_none (h : s.rsp = none) : ResponseInv s := by
  intro r hr
  rw [h] at hr
  cases hr

/-- A change that spares the parameters and both buffers keeps R29. -/
theorem Inv.of_same (h : Inv s) (hcfg : t.cfg = s.cfg) (hsame : ∀ b, SameBuffer b s t) (hr : ResponseInv t) : Inv t :=
  inv_of_buffers (hcfg ▸ h.config) (fun b => (h.buffer b).of_same hcfg (hsame b)) hr

theorem Inv.of_onlyBufferChanges (h : Inv s) (honly : OnlyBufferChanges b s t) (hb : BufferInv t b) {d : Data}
    (hr : t.rsp = some ⟨.ok, d⟩) : Inv t := by
  refine inv_of_buffers (honly.cfg ▸ h.config) (fun b' => ?_) (responseInv_of_rsp hr fun hne => absurd rfl hne)
  by_cases hbb : b' = b
  · exact hbb ▸ hb
  · exact (h.buffer b').of_same honly.cfg (honly.other b' hbb)

/-- Every ending of a command keeps the invariant. -/
theorem Ending.inv {i : Instr} (h : Ending i s t) (hinv : Inv s) : Inv t := by
  cases h with
  | answered st d hdata => exact hinv.of_same rfl (fun b => ⟨by simp, by simp⟩) (responseInv_of_rsp rfl hdata)
  | crcSet c _ =>
    exact hinv.of_same rfl (fun b => by cases b <;> exact ⟨rfl, rfl⟩)
      (responseInv_of_rsp rfl fun hne => absurd rfl hne)
  | cleared b _ =>
    exact hinv.of_onlyBufferChanges (cleared_onlyBufferChanges b s) (bufferInv_cleared (hinv.buffer b)) rfl
  | headerPlaced sid slot fn _ =>
    exact hinv.of_onlyBufferChanges (headerPlaced_onlyBufferChanges sid slot fn s)
      (bufferInv_headerPlaced hinv.config hinv.transmit sid slot fn) rfl
  | appended b bs _ hfit =>
    exact hinv.of_onlyBufferChanges (appended_onlyBufferChanges b bs s)
      (bufferInv_appended hinv.config (hinv.buffer b) bs hfit) (appended_rsp_len b bs s)

end

theorem inv_resetWith {c : Config} (hv : c.Valid) (ins : List Input) : Inv { State.resetWith c with inputs := ins } :=
  inv_of_buffers hv (fun b => by cases b <;> exact bufferInv_empty rfl rfl) (responseInv_of_none rfl)

/-! ### The step -/

section
variable {s : State} {w : CommandWord} {rest : List Input}

theorem step_idle (h : s.inputs = []) : step s = .next s := by
  rw [step, h]

theorem step_reset (h : s.inputs = .reset :: rest) : step s = .next (applyReset s rest) := by
  rw [step, h]

theorem step_pending {r : Response} (h : s.inputs = .command w :: rest) (hr : s.rsp = some r) :
    step s = .next (takeResponse s) := by
  rw [step, h, hr]

/-- A word taken makes one response available, keeps the invariant and changes neither parameters nor inputs. -/
theorem runWord_keeps (hinv : Inv s) (w : CommandWord) :
    ∃ t r, runWord w s = .next t ∧ t.rsp = some r ∧ Inv t ∧ t.cfg = s.cfg ∧ t.inputs = s.inputs := by
  have hanswer : ∃ i t r, runWord w s = .next t ∧ t.rsp = some r ∧ Ending i s t := by
    cases hd : decode w with
    | ok i =>
      obtain ⟨t, r, ht, hr, -⟩ := exec_answersByTable hinv i
      exact ⟨i, t, r, (runWord_of_ok s hd).trans ht, hr, exec_ending ht⟩
    | error e =>
      exact ⟨.crcRd, _, _, runWord_of_error hd s, rfl, .answered .illegal 0#64 fun _ => rfl⟩
  obtain ⟨i, t, r, ht, hr, hend⟩ := hanswer
  obtain ⟨hcfg, hinputs⟩ := hend.cfg_inputs
  exact ⟨t, r, ht, hr, hend.inv hinv, hcfg, hinputs⟩

theorem step_takes_command (hinv : Inv s) (h : s.inputs = .command w :: rest) (hr : s.rsp = none) :
    ∃ t r, step s = .next t ∧ t.rsp = some r ∧ Inv t ∧ t.cfg = s.cfg ∧ t.inputs = rest := by
  have hinv' : Inv { s with inputs := rest } :=
    hinv.of_same rfl (fun b => by cases b <;> exact ⟨rfl, rfl⟩) (responseInv_of_none hr)
  rw [step_command h hr]
  exact runWord_keeps hinv' w

theorem inv_takeResponse (hinv : Inv s) : Inv (takeResponse s) :=
  hinv.of_same rfl (fun b => ⟨by simp, by simp⟩) (responseInv_of_none rfl)

/-- An upper bound on the steps until nothing is presented: two for each thing presented, one fewer when the response
before the first has been taken (log 5). -/
def stepsLeft (s : State) : Nat :=
  match s.inputs, s.rsp with
  | [], _ => 0
  | _ :: rest, none => 2 * rest.length + 1
  | _ :: rest, some _ => 2 * rest.length + 2

theorem stepsLeft_le (s : State) : stepsLeft s ≤ 2 * s.inputs.length := by
  unfold stepsLeft
  split <;> simp only [*, List.length_cons, List.length_nil] <;> omega

theorem stepsLeft_eq_zero_iff (s : State) : stepsLeft s = 0 ↔ s.inputs = [] := by
  unfold stepsLeft
  split <;> simp [*]

/-- Whatever is taken off the channel, the bound falls. -/
theorem stepsLeft_taken {t : State} {x : Input} (hs : s.inputs = x :: rest) (ht : t.inputs = rest) :
    stepsLeft t ≤ stepsLeft s - 1 := by
  have hbefore : 2 * rest.length + 1 ≤ stepsLeft s := by cases hr : s.rsp <;> simp [stepsLeft, hs, hr]
  have hafter := stepsLeft_le t
  rw [ht] at hafter
  omega

/-- A step from a state that obeys the invariant: it keeps the invariant and the parameters, and comes nearer to
nothing being presented. -/
theorem step_keeps (hinv : Inv s) :
    ∃ t, step s = .next t ∧ Inv t ∧ t.cfg = s.cfg ∧ stepsLeft t ≤ stepsLeft s - 1 := by
  match hin : s.inputs with
  | [] => exact ⟨s, step_idle hin, hinv, rfl, by simp [(stepsLeft_eq_zero_iff s).mpr hin]⟩
  | .reset :: rest =>
    exact ⟨_, step_reset hin, inv_resetWith hinv.config rest, rfl, stepsLeft_taken hin rfl⟩
  | .command w :: rest =>
    cases hr : s.rsp with
    | some r =>
      refine ⟨_, step_pending hin hr, inv_takeResponse hinv, rfl, ?_⟩
      simp [stepsLeft, hin, hr]
    | none =>
      obtain ⟨t, r, ht, -, hinv', hcfg, hinputs⟩ := step_takes_command hinv hin hr
      exact ⟨t, ht, hinv', hcfg, stepsLeft_taken hin hinputs⟩

end

/-- A run that is long enough ends with nothing presented. -/
theorem run_empties (n : Nat) : ∀ s, Inv s → stepsLeft s ≤ n →
    ∃ t, Sys2Proof.core.run n s = .next t ∧ t.inputs = [] ∧ Inv t := by
  induction n with
  | zero => exact fun s hinv h => ⟨s, run_zero s, (stepsLeft_eq_zero_iff s).mp (Nat.le_zero.mp h), hinv⟩
  | succ n ih =>
    intro s hinv h
    obtain ⟨t, ht, hinv', -, hle⟩ := step_keeps hinv
    obtain ⟨u, hu, hdone⟩ := ih t hinv' (by omega)
    exact ⟨u, (run_succ ht).trans hu, hdone⟩

end Sys2Proof.Machine

open Sys2Proof Sys2Proof.Machine

/-- Settles O4: a word that is taken is judged by the decoder first. -/
theorem stepRunsTheDecodedCommand : Obligations.StepRunsTheDecodedCommand := by
  refine fun s w rest hin hr => ⟨fun i hd => ?_, fun e hd => ?_⟩
  · rw [step_command hin hr, runWord_of_ok _ hd]
  · rw [step_command hin hr, runWord_of_error hd]
    rfl

/-- Settles O6: a pending response is taken first; with none pending the word is taken and answers. -/
theorem commandsAndResponsesAlternate : Obligations.CommandsAndResponsesAlternate := by
  refine fun s w rest hinv hin => ⟨fun r hr => step_pending hin hr, fun hr => ?_⟩
  obtain ⟨t, r, ht, hrsp, -, -, hinputs⟩ := step_takes_command hinv hin hr
  exact ⟨t, r, ht, hrsp, hinputs⟩

/-- Settles O7: a reset presented first is applied. -/
theorem resetInputGivesResetState : Obligations.ResetInputGivesResetState := fun _ _ hin => step_reset hin

/-- Settles O8: a step with nothing presented. -/
theorem nothingPresentedHoldsState : Obligations.NothingPresentedHoldsState := fun _ => step_idle

/-- Settles O9: the fields of the reset state. -/
theorem resetRegisterValues : Obligations.ResetRegisterValues := by
  refine fun c _ => ⟨rfl, rfl, rfl, fun b a => ?_⟩
  rw [resetWith_buf, Memory.read_nil]

/-- Settles O10: empty buffers of length 0 obey R29. -/
theorem resetObeysInvariant : Obligations.ResetObeysInvariant :=
  ⟨inv_resetWith (c := Config.vectors) (by decide) [], fun _ ins hv => inv_resetWith hv ins⟩

/-- Settles O11: a step is one of four kinds, and each keeps the invariant (`step_keeps`). -/
theorem everyStepKeepsInvariant : Obligations.EveryStepKeepsInvariant := by
  intro s hinv
  obtain ⟨t, ht, hinv', hcfg, -⟩ := step_keeps hinv
  exact ⟨t, ht, hinv', hcfg⟩

/-- Settles O12: `stepsLeft` falls with every step and is at most two for each input. -/
theorem everyPresentedCommandEnds : Obligations.EveryPresentedCommandEnds :=
  fun s hinv => run_empties _ s hinv (stepsLeft_le s)

end

section
/-! PROOFS, 10_state.md R30, 70_reset_and_hazards.md R191, R201: bytes at or above a length are never observed. Alike
states hold the same bytes in both buffers (`Alike.holds`), and what each command answers and stores is given by the
bytes held; so alike states have alike outcomes. -/

namespace Sys2Proof.Machine

section
variable {s s' t t' : State} {b : BufferId} {bs : List Byte}

/-! ### Alike states, buffer by buffer -/

theorem Alike.len_eq (h : Alike s s') (b : BufferId) : s'.len b = s.len b := by
  cases b
  · exact h.txlen
  · exact h.rxlen

theorem Alike.read_eq (h : Alike s s') (b : BufferId) {a : Nat} (ha : a < (s.len b).toNat) :
    Memory.read (s'.buf b) a = Memory.read (s.buf b) a := by
  cases b
  · exact h.txBytes a ha
  · exact h.rxBytes a ha

theorem alike_of_buffers (hcfg : s'.cfg = s.cfg) (hcrc : s'.crc = s.crc) (hlen : ∀ b, s'.len b = s.len b)
    (hread : ∀ b a, a < (s.len b).toNat → Memory.read (s'.buf b) a = Memory.read (s.buf b) a) : Alike s s' :=
  ⟨hcfg, hcrc, hlen .tx, hlen .rx, hread .tx, hread .rx⟩

theorem Alike.holds (h : Alike s s') (hs : Holds s b bs) : Holds s' b bs := by
  obtain ⟨hlen, hbytes⟩ := holds_iff.mp hs
  refine holds_iff.mpr ⟨by rw [h.len_eq, hlen], fun k hk => ?_⟩
  rw [h.cfg, h.read_eq b (by omega)]
  exact hbytes k hk

/-- Answers leave alike states alike. -/
theorem Alike.answer (h : Alike s s') (st : Status) (d : Data) : Alike (s.answer st d) (s'.answer st d) :=
  ⟨h.cfg, h.crc, h.txlen, h.rxlen, h.txBytes, h.rxBytes⟩

/-- Alike states stay alike when one buffer comes to hold the same bytes in both and nothing else changes. -/
theorem Alike.of_holds (h : Alike s s') (honly : OnlyBufferChanges b s t) (honly' : OnlyBufferChanges b s' t')
    (ht : Holds t b bs) (ht' : Holds t' b bs) : Alike t t' := by
  have hbuffer : ∀ c, t'.len c = t.len c ∧
      ∀ a, a < (t.len c).toNat → Memory.read (t'.buf c) a = Memory.read (t.buf c) a := by
    intro c
    by_cases hc : c = b
    · subst hc
      obtain ⟨hlen, hbytes⟩ := holds_iff.mp ht
      obtain ⟨hlen', hbytes'⟩ := holds_iff.mp ht'
      refine ⟨BitVec.eq_of_toNat_eq (hlen'.trans hlen.symm), fun a ha => ?_⟩
      rw [(hbytes a (by omega)).right, (hbytes' a (by omega)).right]
    · obtain ⟨hbuf, hlen⟩ := honly.other c hc
      obtain ⟨hbuf', hlen'⟩ := honly'.other c hc
      rw [hbuf, hlen, hbuf', hlen']
      exact ⟨h.len_eq c, fun a => h.read_eq c⟩
  exact alike_of_buffers (by rw [honly.cfg, honly'.cfg, h.cfg]) (by rw [honly.crc, honly'.crc, h.crc])
    (fun c => (hbuffer c).left) fun c => (hbuffer c).right

/-! ### Alike outcomes -/

/-- Two outcomes are next states with the same response, alike. -/
def AlikeOutcomes (o o' : Host.Outcome State Fault Refusal) : Prop :=
  ∃ t t', o = .next t ∧ o' = .next t' ∧ t'.rsp = t.rsp ∧ Alike t t'

theorem Alike.answers (h : Alike s s') {o o' : Host.Outcome State Fault Refusal} {st : Status} {d : Data}
    (ho : o = .next (s.answer st d)) (ho' : o' = .next (s'.answer st d)) : AlikeOutcomes o o' :=
  ⟨_, _, ho, ho', rfl, h.answer st d⟩

theorem Alike.appends (h : Alike s s') (hv : s.cfg.Valid) (hs : Holds s b bs) {vs : List Byte}
    (hfit : bs.length + vs.length ≤ s.cfg.cap) {o o' : Host.Outcome State Fault Refusal}
    (ho : o = .next (appended b vs s)) (ho' : o' = .next (appended b vs s')) : AlikeOutcomes o o' := by
  have hv' : s'.cfg.Valid := h.cfg ▸ hv
  refine ⟨_, _, ho, ho', ?_, h.of_holds (appended_onlyBufferChanges b vs s) (appended_onlyBufferChanges b vs s')
    (appended_holds hv hs vs hfit) (appended_holds hv' (h.holds hs) vs (by rw [h.cfg]; exact hfit))⟩
  rw [appended_rsp, appended_rsp, h.len_eq]

theorem Alike.clears (h : Alike s s') (b : BufferId) : AlikeOutcomes (.next (cleared b s)) (.next (cleared b s')) :=
  ⟨_, _, rfl, rfl, rfl, h.of_holds (cleared_onlyBufferChanges b s) (cleared_onlyBufferChanges b s')
    (cleared_holds b s) (cleared_holds b s')⟩

theorem Alike.crcSets (h : Alike s s') (c : Half) :
    AlikeOutcomes (.next ({ s with crc := c }.answer .ok 0#64)) (.next ({ s' with crc := c }.answer .ok 0#64)) :=
  ⟨_, _, rfl, rfl, rfl, h.cfg, rfl, h.txlen, h.rxlen, h.txBytes, h.rxBytes⟩

theorem Alike.reads (h : Alike s s') (hb : BufferInv s b) (hb' : BufferInv s' b) (k : Half) :
    AlikeOutcomes (readIndex b k s) (readIndex b k s') := by
  have hlen := h.len_eq b
  rcases Nat.lt_or_ge k.toNat (s.len b).toNat with hin | hout
  · obtain ⟨v, hv, ho⟩ := readIndex_within hb hin
    obtain ⟨v', hv', ho'⟩ := readIndex_within hb' (hlen ▸ hin)
    have hsame : v' = v := by
      rw [h.read_eq b hin, hv] at hv'
      exact (Option.some.inj hv').symm
    exact h.answers ho (hsame ▸ ho')
  · exact h.answers (readIndex_beyond hout) (readIndex_beyond (hlen ▸ hout))

/-- Every command does the same to alike states. -/
theorem exec_alike (hinv : Inv s) (hinv' : Inv s') (h : Alike s s') (i : Instr) :
    AlikeOutcomes (exec i s) (exec i s') := by
  obtain ⟨bs, hbs⟩ := hinv.transmit.exists_holds
  obtain ⟨f, hf⟩ := hinv.receive.exists_holds
  have htxlen : s.txlen.toNat = bs.length := hbs.left
  have hrxlen := hf.rxlen_eq
  cases i with
  | crcInit => exact h.crcSets _
  | crcUpd v =>
    rw [exec_crcUpd, exec_crcUpd, h.crc]
    exact h.crcSets (crcStep s.crc v)
  | crcRd => exact h.answers (exec_crcRd s) (h.crc ▸ exec_crcRd s')
  | txLen => exact h.answers (exec_txLen s) (h.txlen ▸ exec_txLen s')
  | rxLen => exact h.answers (exec_rxLen s) (h.rxlen ▸ exec_rxLen s')
  | txClr => exact h.clears .tx
  | rxClr => exact h.clears .rx
  | txHdr sid slot fn =>
    exact ⟨_, _, exec_txHdr hinv.config sid slot fn, exec_txHdr hinv'.config sid slot fn, rfl,
      h.of_holds (headerPlaced_onlyBufferChanges sid slot fn s) (headerPlaced_onlyBufferChanges sid slot fn s')
        (headerPlaced_holds hinv.config sid slot fn) (headerPlaced_holds hinv'.config sid slot fn)⟩
  | txPut v =>
    rcases Nat.lt_or_ge s.cfg.cap (s.txlen.toNat + 3) with hfull | hroom
    · exact h.answers (exec_txPut_overflow hfull v) (exec_txPut_overflow (by rwa [h.cfg, h.txlen]) v)
    · exact h.appends hinv.config hbs (by rw [List.length_singleton]; omega) (exec_txPut_fits hroom v)
        (exec_txPut_fits (by rwa [h.cfg, h.txlen]) v)
  | txSeal =>
    rcases Nat.lt_or_ge s.cfg.cap (s.txlen.toNat + 2) with hfull | hroom
    · exact h.answers (exec_txSeal_overflow hfull) (exec_txSeal_overflow (by rwa [h.cfg, h.txlen]))
    · rw [htxlen] at hroom
      exact h.appends (vs := le16Put (crc16 bs)) hinv.config hbs hroom
        (exec_txSeal_fits hbs hroom) (exec_txSeal_fits (h.holds hbs) (by rwa [h.cfg]))
  | rxPut v =>
    rcases Nat.lt_or_ge s.cfg.cap (s.rxlen.toNat + 1) with hfull | hroom
    · exact h.answers (exec_rxPut_overflow hfull v) (exec_rxPut_overflow (by rwa [h.cfg, h.rxlen]) v)
    · exact h.appends hinv.config hf (by rw [List.length_singleton]; omega) (exec_rxPut_fits hroom v)
        (exec_rxPut_fits (by rwa [h.cfg, h.rxlen]) v)
  | txRd k => exact h.reads hinv.transmit hinv'.transmit k
  | rxRd k => exact h.reads hinv.receive hinv'.receive k
  | rxChk =>
    obtain ⟨st, d, ho, ho'⟩ := verdictsDependOnReceivedBytesOnly f s s' hf (h.holds hf) .rxChk (.inl rfl)
    exact h.answers ho ho'
  | rxDec =>
    obtain ⟨st, d, ho, ho'⟩ := verdictsDependOnReceivedBytesOnly f s s' hf (h.holds hf) .rxDec (.inr rfl)
    exact h.answers ho ho'

end

end Sys2Proof.Machine

open Sys2Proof Sys2Proof.Machine

/-- Settles O32: `exec_alike`, by the bytes that both states hold. -/
theorem staleBytesAreNeverObserved : Obligations.StaleBytesAreNeverObserved := by
  intro i s s' t hinv hinv' halike h
  obtain ⟨u, t', hu, ht', hrsp, hnext⟩ := exec_alike hinv hinv' halike i
  rw [h] at hu
  cases hu
  exact ⟨t', ht', hrsp, hnext⟩

end

section
/-! PROOFS, 40_crc.md R93 (a), (d), 30_encoding.md R60, R66, 00_scope.md R12: frames as byte sequences. A trailer
verifies exactly when the checksum of the whole sequence is 0 (`trailerVerifies_iff`), so one changed bit is always
detected. -/

namespace Sys2Proof.Machine

/-! ### Fields (00_scope.md R12) -/

theorem le16Put_getElem? (v : BitVec 16) {k : Nat} (h : k < 2) : (le16Put v)[k]? = some (v.extractLsb' (8 * k) 8) := by
  interval_cases k <;> rfl

theorem le32Put_le32Get (b0 b1 b2 b3 : Byte) : le32Put (le32Get b0 b1 b2 b3) = [b0, b1, b2, b3] := by
  have h0 : (le32Get b0 b1 b2 b3).extractLsb' 0 8 = b0 := extract_append_low (b3 ++ b2 ++ b1) b0
  have h1 : (le32Get b0 b1 b2 b3).extractLsb' 8 8 = b1 :=
    (extract_append_above (b3 ++ b2 ++ b1) b0 0 8).trans (extract_append_low (b3 ++ b2) b1)
  have h2 : (le32Get b0 b1 b2 b3).extractLsb' 16 8 = b2 :=
    calc (le32Get b0 b1 b2 b3).extractLsb' 16 8
        = (b3 ++ b2 ++ b1).extractLsb' 8 8 := extract_append_above (b3 ++ b2 ++ b1) b0 8 8
      _ = (b3 ++ b2).extractLsb' 0 8 := extract_append_above (b3 ++ b2) b1 0 8
      _ = b2 := extract_append_low b3 b2
  have h3 : (le32Get b0 b1 b2 b3).extractLsb' 24 8 = b3 :=
    calc (le32Get b0 b1 b2 b3).extractLsb' 24 8
        = (b3 ++ b2 ++ b1).extractLsb' 16 8 := extract_append_above (b3 ++ b2 ++ b1) b0 16 8
      _ = (b3 ++ b2).extractLsb' 8 8 := extract_append_above (b3 ++ b2) b1 8 8
      _ = b3 := extract_append_high b3 b2
  rw [le32Put, h0, h1, h2, h3]

theorem le16Put_le16Get (b0 b1 : Byte) : le16Put (le16Get b0 b1) = [b0, b1] := by
  have h0 : (le16Get b0 b1).extractLsb' 0 8 = b0 := extract_append_low b1 b0
  have h1 : (le16Get b0 b1).extractLsb' 8 8 = b1 := extract_append_high b1 b0
  rw [le16Put, h0, h1]

theorem le32Get_le32Put (v : BitVec 32) :
    le32Get (v.extractLsb' 0 8) (v.extractLsb' 8 8) (v.extractLsb' 16 8) (v.extractLsb' 24 8) = v := by
  have h16 : v.extractLsb' 24 8 ++ v.extractLsb' 16 8 = v.extractLsb' 16 16 :=
    BitVec.extractLsb'_append_extractLsb'_eq_extractLsb' rfl
  have h24 : v.extractLsb' 16 16 ++ v.extractLsb' 8 8 = v.extractLsb' 8 24 :=
    BitVec.extractLsb'_append_extractLsb'_eq_extractLsb' rfl
  rw [le32Get, h16, h24]
  exact append_extract (n := 24) (m := 8) v

/-- A length that fits in 16 bits is response data unchanged. -/
theorem halfData_ofNat {n : Nat} (h : n < 2 ^ 16) : halfData (BitVec.ofNat 16 n) = BitVec.ofNat 64 n := by
  apply BitVec.eq_of_toNat_eq
  simp only [halfData, BitVec.toNat_setWidth, BitVec.toNat_ofNat]
  omega

/-! ### Trailers (30_encoding.md R66 (c)) -/

theorem exists_trailer_of_length {f : List Byte} (h : 2 ≤ f.length) : ∃ bs lo hi, f = bs ++ [lo, hi] := by
  have htwo : (f.drop (f.length - 2)).length = 2 := by
    rw [List.length_drop]
    omega
  obtain ⟨lo, hi, hdrop⟩ := List.length_eq_two.mp htwo
  exact ⟨f.take (f.length - 2), lo, hi, by rw [← hdrop, List.take_append_drop]⟩

/-- R93 (a) as a test of the trailer. -/
theorem trailerVerifies_iff (f : List Byte) : trailerVerifies f ↔ 2 ≤ f.length ∧ crc16 f = 0#16 := by
  refine and_congr_right fun h2 => ?_
  obtain ⟨bs, lo, hi, rfl⟩ := exists_trailer_of_length h2
  rw [crc16_with_trailer_eq_zero_iff]
  simp

theorem sealed_length (bs : List Byte) : (sealed bs).length = bs.length + 2 := by
  rw [sealed, List.length_append]
  rfl

theorem trailerVerifies_sealed (bs : List Byte) : trailerVerifies (sealed bs) := by
  rw [trailerVerifies_iff, sealed_length]
  exact ⟨Nat.le_add_left 2 _, (crc16_with_trailer_eq_zero_iff bs _ _).mpr ⟨rfl, rfl⟩⟩

section
variable {f g : List Byte} (h : DifferInOneBit f g)
include h

theorem DifferInOneBit.length_eq : g.length = f.length := by
  obtain ⟨before, b, after, k, -, rfl, rfl⟩ := h
  simp

/-- One changed bit anywhere, the trailer included, is detected. -/
theorem DifferInOneBit.not_trailerVerifies (hv : trailerVerifies f) : ¬ trailerVerifies g := by
  intro hg
  obtain ⟨-, hf0⟩ := (trailerVerifies_iff f).mp hv
  obtain ⟨-, hg0⟩ := (trailerVerifies_iff g).mp hg
  exact crc16_ne_of_differInOneBit h (hf0.trans hg0.symm)

end

/-! ### The frame of a header and a payload (30_encoding.md R60) -/

section
variable (sid : ServerId) (slot fn : Byte) (p : List Byte)

theorem frame_length : (frame sid slot fn p).length = p.length + 8 := by
  rw [frame, sealed_length, List.length_append, headerBytes_length]
  omega

theorem frame_wellFormed {cap : Nat} (h : p.length + 8 ≤ cap) : WellFormedFrame cap (frame sid slot fn p) := by
  refine ⟨?_, ?_, trailerVerifies_sealed _⟩
  · rw [frame_length]
    exact Nat.le_add_left 8 _
  · rwa [frame_length]

theorem frame_payload {j : Nat} (h : j < p.length) : (frame sid slot fn p)[6 + j]? = p[j]? := by
  have hin : 6 + j < (headerBytes sid slot fn ++ p).length := by
    rw [List.length_append, headerBytes_length]
    omega
  rw [frame, sealed, List.getElem?_append_left hin, List.getElem?_append_right (by rw [headerBytes_length]; omega),
    headerBytes_length, Nat.add_sub_cancel_left]

/-- Parsing a frame gives back what it was built from. -/
theorem parsesHeader_frame {d : Data} (h : ParsesHeader d (frame sid slot fn p)) :
    d.extractLsb' 0 32 = sid ∧ d.extractLsb' 32 8 = slot ∧ d.extractLsb' 40 8 = fn ∧
      (d.extractLsb' 48 16).toNat = p.length := by
  obtain ⟨b0, b1, b2, b3, slot', fn', rest, hf, hsid, hslot, hfn, hlen⟩ := h
  have hhead : headerBytes sid slot fn = [b0, b1, b2, b3, slot', fn'] := congrArg (List.take 6) hf
  cases hhead
  rw [le32Get_le32Put] at hsid
  rw [frame_length, Nat.add_sub_cancel] at hlen
  exact ⟨hsid, hslot, hfn, hlen⟩

end

end Sys2Proof.Machine

open Sys2Proof Sys2Proof.Machine

/-- Settles O54: the bytes of a field, and the slices of the bytes put together. -/
theorem fieldsAreLittleEndian : Obligations.FieldsAreLittleEndian :=
  ⟨fun v _ hk => le32Put_getElem? v hk, fun v _ hk => le16Put_getElem? v hk, le32Put_le32Get, le16Put_le16Get⟩

end

section
/-! PROOFS, 30_encoding.md R77 to R81, 41_encoder.md R114, 43_frame_laws.md R150 to R157: runs of commands. Every
pseudo-operation but `CRC16` starts a buffer (`StartsWith`), puts bytes into it one by one, and ends with one more
command. Whether the bytes fit (`fill_fits`) or not (`fill_overflows`) is settled once for both buffers. -/

namespace Sys2Proof.Machine

/-! ### Sequences of commands (R77) -/

/-- Issuing a command is executing it: its word decodes to it, and the response before it does not matter. -/
theorem issue_eq (i : Instr) (s : State) : issue i s = exec i s := by
  rw [issue_eq_exec (decode_encode i), takeResponse_eq_withRsp, exec_withRsp]

theorem respondedOk_of_rsp {s : State} {st : Status} {d : Data} (h : s.rsp = some ⟨st, d⟩) :
    s.respondedOk = (st == .ok) := by
  rw [State.respondedOk, h]

theorem issueAll_singleton (i : Instr) (s : State) : issueAll [i] s = exec i s := by
  rw [issueAll, issue_eq]
  cases exec i s with
  | next t => exact ite_self _
  | fault e => rfl
  | refused e => rfl

/-- A sequence that is not empty goes on with the next one exactly if it ends with `OK`. -/
theorem issueAll_append {xs : List Instr} (hne : xs ≠ []) (ys : List Instr) {s t : State}
    (h : issueAll xs s = .next t) : issueAll (xs ++ ys) s = if t.respondedOk then issueAll ys t else .next t := by
  induction xs generalizing s with
  | nil => exact absurd rfl hne
  | cons i xs ih =>
    cases hi : issue i s with
    | fault e => simp [issueAll, hi] at h
    | refused e => simp [issueAll, hi] at h
    | next u =>
      cases hu : u.respondedOk with
      | false =>
        rw [issueAll_cons_stop hi hu] at h
        cases h
        rw [List.cons_append, issueAll_cons_stop hi hu, hu]
        rfl
      | true =>
        rw [issueAll_cons_ok hi hu] at h
        rw [List.cons_append, issueAll_cons_ok hi hu]
        cases xs with
        | nil =>
          cases h
          rw [hu]
          rfl
        | cons j xs => exact ih (List.cons_ne_nil j xs) h

/-! ### `CRC16` (R78) -/

/-- The state after the accumulator is set and `OK` answered. -/
def crcAnswered (s : State) (c : Half) (d : Data) : State := { s with crc := c }.answer .ok d

theorem issueAll_crcUpd (bs : List Byte) (s : State) (c : Half) :
    issueAll (bs.map .crcUpd) (crcAnswered s c 0#64) = .next (crcAnswered s (crcFrom c bs) 0#64) := by
  induction bs generalizing c with
  | nil => rfl
  | cons b bs ih =>
    rw [List.map_cons, issueAll_cons_ok ((issue_eq _ _).trans (exec_crcUpd b _)) rfl]
    exact ih (crcStep c b)

theorem issueAll_crc16Ops (bs : List Byte) (s : State) :
    issueAll (crc16Ops bs) s = .next (crcAnswered s (crc16 bs) ((crc16 bs).setWidth 64)) := by
  have hrun : issueAll (.crcInit :: bs.map .crcUpd) s = .next (crcAnswered s (crc16 bs) 0#64) := by
    rw [issueAll_cons_ok ((issue_eq _ _).trans (exec_crcInit s)) rfl]
    exact issueAll_crcUpd bs s crcStart
  rw [crc16Ops, issueAll_append (List.cons_ne_nil _ _) _ hrun]
  exact issueAll_singleton .crcRd _

/-! ### A buffer rewritten from its start -/

/-- Buffer `b` has come to hold `bs`, and nothing else has changed but the response. -/
structure Rewritten (b : BufferId) (bs : List Byte) (s t : State) : Prop where
  holds : Holds t b bs
  outside : SameBytesOutside b 0 bs.length s t
  only : OnlyBufferChanges b s t

section
variable {b : BufferId} {bs : List Byte} {s t : State}

theorem Rewritten.len_eq (h : Rewritten b bs s t) : (t.len b).toNat = bs.length := h.holds.left

theorem Rewritten.answer (h : Rewritten b bs s t) (st : Status) (d : Data) : Rewritten b bs s (t.answer st d) where
  holds := (holds_answer_iff st d).mpr h.holds
  outside a ha := by
    rw [State.answer_buf]
    exact h.outside a ha
  only := ⟨h.only.cfg, h.only.crc, h.only.inputs, fun c hc => by
    obtain ⟨hbuf, hlen⟩ := h.only.other c hc
    exact ⟨by rw [State.answer_buf, hbuf], by rw [State.answer_len, hlen]⟩⟩

theorem Rewritten.appended (h : Rewritten b bs s t) (hv : s.cfg.Valid) (vs : List Byte)
    (hfit : bs.length + vs.length ≤ s.cfg.cap) : Rewritten b (bs ++ vs) s (appended b vs t) where
  holds := appended_holds (h.only.cfg ▸ hv) h.holds vs (by rw [h.only.cfg]; exact hfit)
  outside a ha := by
    rw [List.length_append] at ha
    rw [appended_sameBytesOutside b vs t a (by rw [h.len_eq]; omega)]
    exact h.outside a (by omega)
  only := by
    have happ := appended_onlyBufferChanges b vs t
    refine ⟨happ.cfg.trans h.only.cfg, happ.crc.trans h.only.crc, happ.inputs.trans h.only.inputs, fun c hc => ?_⟩
    obtain ⟨hbuf, hlen⟩ := h.only.other c hc
    obtain ⟨hbuf', hlen'⟩ := happ.other c hc
    exact ⟨hbuf'.trans hbuf, hlen'.trans hlen⟩

/-- A command responds `OK` and makes buffer `b` hold exactly `hd`. -/
def StartsWith (i : Instr) (b : BufferId) (hd : List Byte) (s : State) : Prop :=
  ∃ t, exec i s = .next t ∧ t.respondedOk = true ∧ Rewritten b hd s t

theorem rewritten_cleared (b : BufferId) (s : State) : Rewritten b [] s (cleared b s) :=
  ⟨cleared_holds b s, fun a _ => by rw [cleared, State.answer_buf, State.setLen_buf], cleared_onlyBufferChanges b s⟩

theorem txClr_startsWith (s : State) : StartsWith .txClr .tx [] s := ⟨_, rfl, rfl, rewritten_cleared .tx s⟩

theorem rxClr_startsWith (s : State) : StartsWith .rxClr .rx [] s := ⟨_, rfl, rfl, rewritten_cleared .rx s⟩

theorem txHdr_startsWith (hv : s.cfg.Valid) (sid : ServerId) (slot fn : Byte) :
    StartsWith (.txHdr sid slot fn) .tx (headerBytes sid slot fn) s :=
  ⟨_, exec_txHdr hv sid slot fn, rfl, headerPlaced_holds hv sid slot fn, headerPlaced_sameBytesOutside sid slot fn s,
    headerPlaced_onlyBufferChanges sid slot fn s⟩

/-! ### Putting bytes into a buffer, `TX.PUT` and `RX.PUT` alike -/

/-- The command that puts one byte into a buffer. -/
def putOp : BufferId → Byte → Instr
  | .tx => .txPut
  | .rx => .rxPut

/-- The bytes that command leaves free: the checksum's in `TXB` (41_encoder.md R113), none in `RXB`
(42_decoder.md R132). -/
def keptFree : BufferId → Nat
  | .tx => checksumLen
  | .rx => 0

theorem exec_putOp_fits (h : (s.len b).toNat + 1 + keptFree b ≤ s.cfg.cap) (v : Byte) :
    exec (putOp b v) s = .next (appended b [v] s) := by
  cases b
  · exact exec_txPut_fits h v
  · exact exec_rxPut_fits h v

theorem exec_putOp_overflow (h : s.cfg.cap < (s.len b).toNat + 1 + keptFree b) (v : Byte) :
    exec (putOp b v) s = .next (s.answer .overflow 0#64) := by
  cases b
  · exact exec_txPut_overflow h v
  · exact exec_rxPut_overflow h v

/-- Bytes that fit are put after those already there. -/
theorem puts_fit (hv : s.cfg.Valid) (p : List Byte) (hr : Rewritten b bs s t) (hok : t.respondedOk = true)
    (hfit : bs.length + p.length + keptFree b ≤ s.cfg.cap) :
    ∃ u, issueAll (p.map (putOp b)) t = .next u ∧ u.respondedOk = true ∧ Rewritten b (bs ++ p) s u := by
  induction p generalizing bs t with
  | nil => exact ⟨t, rfl, hok, by rwa [List.append_nil]⟩
  | cons v p ih =>
    rw [List.length_cons] at hfit
    have hput : issue (putOp b v) t = .next (appended b [v] t) := by
      rw [issue_eq]
      exact exec_putOp_fits (by rw [hr.len_eq, hr.only.cfg]; omega) v
    have hokv : (appended b [v] t).respondedOk = true := respondedOk_of_rsp (appended_rsp b [v] t)
    have hrv := hr.appended hv [v] (by rw [List.length_singleton]; omega)
    obtain ⟨u, hu, huok, hru⟩ := ih hrv hokv (by rw [List.length_append, List.length_singleton]; omega)
    rw [List.append_assoc, List.singleton_append] at hru
    exact ⟨u, (issueAll_cons_ok hput hokv).trans hu, huok, hru⟩

section
variable {i : Instr} {hd : List Byte} (hv : s.cfg.Valid) (hstart : StartsWith i b hd s) (p : List Byte)
include hv hstart

/-- After a command that starts a buffer, a run of bytes that fits is stored whole. -/
theorem fill_fits (hfit : hd.length + p.length + keptFree b ≤ s.cfg.cap) :
    ∃ t, issueAll (i :: p.map (putOp b)) s = .next t ∧ t.respondedOk = true ∧ Rewritten b (hd ++ p) s t := by
  obtain ⟨t, ht, hok, hr⟩ := hstart
  obtain ⟨u, hu, huok, hru⟩ := puts_fit hv p hr hok hfit
  exact ⟨u, (issueAll_cons_ok ((issue_eq i s).trans ht) hok).trans hu, huok, hru⟩

/-- A longer run stops with `OVERFLOW` at the first byte without room, with the bytes before it stored. -/
theorem fill_overflows (hroom : hd.length + keptFree b ≤ s.cfg.cap)
    (hlong : s.cfg.cap < hd.length + p.length + keptFree b) :
    ∃ t, issueAll (i :: p.map (putOp b)) s = .next (t.answer .overflow 0#64) ∧
      Rewritten b (hd ++ p.take (s.cfg.cap - keptFree b - hd.length)) s t := by
  have hcount : s.cfg.cap - keptFree b - hd.length < p.length := by omega
  have hlen := List.length_take_of_le (Nat.le_of_lt hcount)
  obtain ⟨t, ht, hok, hr⟩ :=
    fill_fits hv hstart (p.take (s.cfg.cap - keptFree b - hd.length)) (by rw [hlen]; omega)
  have hput : issue (putOp b p[s.cfg.cap - keptFree b - hd.length]) t = .next (t.answer .overflow 0#64) := by
    rw [issue_eq]
    exact exec_putOp_overflow (by rw [hr.len_eq, hr.only.cfg, List.length_append, hlen]; omega) _
  refine ⟨t, ?_, hr⟩
  conv_lhs => rw [← List.take_append_drop (s.cfg.cap - keptFree b - hd.length) p, List.drop_eq_getElem_cons hcount,
    List.map_append, ← List.cons_append, issueAll_append (List.cons_ne_nil _ _) _ ht, if_pos hok, List.map_cons,
    issueAll_cons_stop hput rfl]

/-- A fitting run followed by one more command executes that command on the filled buffer. -/
theorem fill_then (last : Instr) (hfit : hd.length + p.length + keptFree b ≤ s.cfg.cap) :
    ∃ t, issueAll (i :: p.map (putOp b) ++ [last]) s = exec last t ∧ Rewritten b (hd ++ p) s t := by
  obtain ⟨t, ht, hok, hr⟩ := fill_fits hv hstart p hfit
  refine ⟨t, ?_, hr⟩
  rw [issueAll_append (List.cons_ne_nil _ _) _ ht, if_pos hok, issueAll_singleton]

/-- A run without room never comes to the command after it. -/
theorem fill_overflows_then (last : Instr) (hroom : hd.length + keptFree b ≤ s.cfg.cap)
    (hlong : s.cfg.cap < hd.length + p.length + keptFree b) :
    ∃ t, issueAll (i :: p.map (putOp b) ++ [last]) s = .next (t.answer .overflow 0#64) ∧
      Rewritten b (hd ++ p.take (s.cfg.cap - keptFree b - hd.length)) s t := by
  obtain ⟨t, ht, hr⟩ := fill_overflows hv hstart p hroom hlong
  refine ⟨t, ?_, hr⟩
  rw [issueAll_append (List.cons_ne_nil _ _) _ ht]
  rfl

end

/-- Bytes that fit with their checksum are stored and sealed. -/
theorem fill_then_seal {i : Instr} {hd : List Byte} (hv : s.cfg.Valid) (hstart : StartsWith i .tx hd s) (p : List Byte)
    (hfit : hd.length + p.length + 2 ≤ s.cfg.cap) :
    ∃ t, issueAll (i :: p.map .txPut ++ [.txSeal]) s = .next t ∧
      t.rsp = some ⟨.ok, BitVec.ofNat 64 (hd.length + p.length + 2)⟩ ∧ Rewritten .tx (sealed (hd ++ p)) s t := by
  obtain ⟨t, ht, hr⟩ := fill_then hv hstart p .txSeal hfit
  have hlen : (hd ++ p).length + 2 ≤ s.cfg.cap := by
    rw [List.length_append]
    exact hfit
  refine ⟨_, ht.trans (exec_txSeal_fits hr.holds (by rw [hr.only.cfg]; exact hlen)), ?_, hr.appended hv _ hlen⟩
  obtain ⟨-, hcap, -⟩ := hv
  rw [appended_rsp, hr.len_eq, List.length_append]
  exact congrArg (fun d => some (Response.mk .ok d)) (halfData_ofNat (n := hd.length + p.length + 2) (by omega))

end

/-- The received bytes of a run that fits, judged by its last command. -/
theorem receive_then {s : State} (hv : s.cfg.Valid) {f : List Byte} (hfit : f.length ≤ s.cfg.cap) (last : Instr) :
    ∃ t, issueAll (.rxClr :: f.map .rxPut ++ [last]) s = exec last t ∧ Rewritten .rx f s t :=
  fill_then hv (rxClr_startsWith s) f last (by simpa [keptFree] using hfit)

theorem receive_overflows {s : State} (hv : s.cfg.Valid) {f : List Byte} (hlong : s.cfg.cap < f.length)
    (last : Instr) :
    ∃ t : State, issueAll (.rxClr :: f.map .rxPut ++ [last]) s = .next (t.answer .overflow 0#64) ∧
      OnlyBufferChanges .rx s (t.answer .overflow 0#64) := by
  obtain ⟨t, ht, hr⟩ :=
    fill_overflows_then hv (rxClr_startsWith s) f last (Nat.zero_le _) (by simpa [keptFree] using hlong)
  exact ⟨t, ht, (hr.answer .overflow 0#64).only⟩

end Sys2Proof.Machine

open Sys2Proof Sys2Proof.Machine

/-- Settles O42: the accumulator runs through the bytes from its initial value. -/
theorem crc16ComputesChecksum : Obligations.Crc16ComputesChecksum := issueAll_crc16Ops

/-- Settles O41: the run fits exactly when every byte finds room for itself and the checksum. -/
theorem capacityLaw : Obligations.CapacityLaw := by
  intro sid slot fn p s hv
  have hcap : 8 ≤ s.cfg.cap := hv.left
  have hstart := txHdr_startsWith hv sid slot fn
  rcases Nat.lt_or_ge s.cfg.cap (6 + p.length + 2) with hlong | hfit
  · obtain ⟨t, ht, hr⟩ := fill_overflows hv hstart p hcap hlong
    have hlen : t.txlen.toNat = s.cfg.cap - 2 := by
      have htake : s.cfg.cap - keptFree .tx - (headerBytes sid slot fn).length = s.cfg.cap - 8 :=
        Nat.sub_sub s.cfg.cap 2 6
      have hall := hr.len_eq
      rw [htake, List.length_append, headerBytes_length, List.length_take_of_le (by omega), State.len_tx] at hall
      omega
    have hcfg : t.cfg.cap = s.cfg.cap := by rw [hr.only.cfg]
    refine ⟨_, ht, iff_of_false Bool.false_ne_true (Nat.not_le.mpr hlong), ?_, ?_, fun _ v => ?_⟩
    · rw [State.answer_txlen, hlen, Nat.min_eq_right (by omega)]
      omega
    · rw [State.answer_txlen, hlen]
      omega
    · exact exec_txPut_overflow (by rw [State.answer_cfg, State.answer_txlen, hcfg, hlen]; omega) v
  · obtain ⟨t, ht, hok, hr⟩ := fill_fits hv hstart p hfit
    have hlen : t.txlen.toNat = 6 + p.length := by
      have hall := hr.len_eq
      rwa [List.length_append] at hall
    refine ⟨t, ht, iff_of_true hok hfit, ?_, by omega, fun hno => absurd hok hno⟩
    rw [hlen, Nat.min_eq_left (by omega)]

/-- Settles O43: header, payload and seal, each where the one before ended. -/
theorem encodeBuildsFrame : Obligations.EncodeBuildsFrame := by
  intro sid slot fn p s hv hfit
  have hsize : (headerBytes sid slot fn).length + p.length + 2 = p.length + 8 := by
    rw [headerBytes_length]
    omega
  obtain ⟨t, ht, hrsp, hr⟩ := fill_then_seal hv (txHdr_startsWith hv sid slot fn) p (by omega)
  rw [hsize] at hrsp
  have houtside := hr.outside
  rw [show (sealed (headerBytes sid slot fn ++ p)).length = p.length + 8 from frame_length sid slot fn p] at houtside
  exact ⟨t, ht, hrsp, hr.holds, frame_wellFormed sid slot fn p hfit, houtside, hr.only⟩

/-- Settles O44: the run stops before the byte that would take the checksum's room. -/
theorem encodeStopsAtOverflow : Obligations.EncodeStopsAtOverflow := by
  intro sid slot fn p s hv hlong
  have hcap : 8 ≤ s.cfg.cap := hv.left
  obtain ⟨t, ht, hr⟩ := fill_overflows_then hv (txHdr_startsWith hv sid slot fn) p .txSeal hcap
    (by rw [headerBytes_length, keptFree, checksumLen]; omega)
  have htake : s.cfg.cap - keptFree .tx - (headerBytes sid slot fn).length = s.cfg.cap - 8 :=
    Nat.sub_sub s.cfg.cap 2 6
  rw [htake] at hr
  have hanswer := hr.answer .overflow 0#64
  refine ⟨_, ht, rfl, hanswer.holds, ?_, hanswer.only⟩
  have hall := hr.len_eq
  rw [List.length_append, headerBytes_length, List.length_take_of_le (by omega), State.len_tx] at hall
  rw [State.answer_txlen]
  omega

/-- Settles O45: a sequence that fits is in `RXB` when `RX.DEC` judges it. -/
theorem decodeJudgesFrame : Obligations.DecodeJudgesFrame := by
  intro f s hv
  rcases Nat.lt_or_ge s.cfg.cap f.length with hlong | hfit
  · obtain ⟨t, ht, honly⟩ := receive_overflows hv hlong .rxDec
    exact ⟨_, _, ht, rfl, honly, fun _ => rfl, fun hno => absurd hlong (Nat.not_lt.mpr hno)⟩
  obtain ⟨t, ht, hr⟩ := receive_then hv hfit .rxDec
  have hno : ¬ s.cfg.cap < f.length := Nat.not_lt.mpr hfit
  rcases Nat.lt_or_ge f.length 8 with hshort | h8
  · have hanswer := hr.answer .fault 0#64
    exact ⟨_, _, ht.trans (exec_rxDec_short hr.holds hshort), rfl, hanswer.only, fun h => absurd h hno,
      fun _ => ⟨hanswer.holds, fun _ => rfl, fun h _ => absurd hshort (Nat.not_lt.mpr h),
        fun h _ => absurd hshort (Nat.not_lt.mpr h)⟩⟩
  by_cases hv' : trailerVerifies f
  · obtain ⟨d, hparses, hexec⟩ := exec_rxDec_verified h8 hr.holds.length_lt hv'
    have hanswer := hr.answer .ok d
    exact ⟨_, _, ht.trans (hexec t hr.holds), rfl, hanswer.only, fun h => absurd h hno,
      fun _ => ⟨hanswer.holds, fun h => absurd h (Nat.not_lt.mpr h8), fun _ h => absurd hv' h,
        fun _ _ => ⟨rfl, hparses⟩⟩⟩
  · have hanswer := hr.answer .checksumError 0#64
    exact ⟨_, _, ht.trans (exec_rxDec_unverified hr.holds h8 hv'), rfl, hanswer.only, fun h => absurd h hno,
      fun _ => ⟨hanswer.holds, fun h => absurd h (Nat.not_lt.mpr h8), fun _ _ => rfl, fun _ h => absurd h hv'⟩⟩

/-- Settles O46: `fill_then_seal` from the empty buffer. -/
theorem appendCrcSealsBytes : Obligations.AppendCrcSealsBytes := by
  intro bs s hv
  have hcap : 8 ≤ s.cfg.cap := hv.left
  rcases Nat.lt_or_ge (s.cfg.cap - 2) bs.length with hlong | hfit
  · obtain ⟨t, ht, hr⟩ := fill_overflows_then hv (txClr_startsWith s) bs .txSeal
      (by rw [List.length_nil, keptFree, checksumLen]; omega)
      (by rw [List.length_nil, keptFree, checksumLen]; omega)
    exact ⟨_, _, ht, rfl, fun h => absurd hlong (Nat.not_lt.mpr h), fun _ => rfl, (hr.answer .overflow 0#64).only⟩
  · obtain ⟨t, ht, hrsp, hr⟩ := fill_then_seal hv (txClr_startsWith s) bs (by rw [List.length_nil]; omega)
    rw [List.length_nil, Nat.zero_add] at hrsp
    exact ⟨t, _, ht, hrsp, fun _ => ⟨rfl, hr.holds⟩, fun h => absurd h (Nat.not_lt.mpr hfit), hr.only⟩

/-- Settles O47: a sequence that fits is in `RXB` when `RX.CHK` judges it. -/
theorem verifyGivesVerdict : Obligations.VerifyGivesVerdict := by
  intro f s hv
  rcases Nat.lt_or_ge s.cfg.cap f.length with hlong | hfit
  · obtain ⟨t, ht, honly⟩ := receive_overflows hv hlong .rxChk
    have hno : ¬ f.length ≤ s.cfg.cap := Nat.not_le.mpr hlong
    exact ⟨_, _, ht, rfl, fun h _ => absurd h hno, fun h _ => absurd h hno, fun _ => rfl, honly⟩
  obtain ⟨t, ht, hr⟩ := receive_then hv hfit .rxChk
  have hno : ¬ s.cfg.cap < f.length := Nat.not_lt.mpr hfit
  by_cases hv' : trailerVerifies f
  · exact ⟨_, _, ht.trans (exec_rxChk_verified hr.holds hv'), rfl, fun _ _ => rfl, fun _ h => absurd hv' h,
      fun h => absurd h hno, (hr.answer .ok 1#64).only⟩
  · exact ⟨_, _, ht.trans (exec_rxChk_unverified hr.holds hv'), rfl, fun _ h => absurd h hv', fun _ _ => rfl,
      fun h => absurd h hno, (hr.answer .ok 0#64).only⟩

namespace Sys2Proof.Machine

/-! ### Well-formed and protocol-conforming frames -/

/-- A well-formed frame is decoded `OK`, is in `RXB`, and its header is the response's. -/
theorem decode_wellFormed {f : List Byte} {s : State} (hv : s.cfg.Valid) (hwf : WellFormedFrame s.cfg.cap f) :
    ∃ t d, issueAll (decodeOps f) s = .next t ∧ t.rsp = some ⟨.ok, d⟩ ∧
      Holds t .rx f ∧ ParsesHeader d f := by
  obtain ⟨h8, hfit, htrailer⟩ := hwf
  obtain ⟨t, r, ht, hrsp, -, -, hfits⟩ := decodeJudgesFrame f s hv
  obtain ⟨hholds, -, -, hgood⟩ := hfits hfit
  obtain ⟨hok, hparses⟩ := hgood h8 htrailer
  exact ⟨t, r.data, ht, by rw [hrsp, ← hok], hholds, hparses⟩

/-- A protocol-conforming frame has a known function byte, and no payload where the function allows none (R67). -/
theorem protocolFrame_frame {c : Config} {sid : ServerId} {slot fn : Byte} {p : List Byte}
    (h : ProtocolFrame c (frame sid slot fn p)) :
    fnClass c fn ≠ .unknown ∧ (fnClass c fn = .getReq ∨ fnClass c fn = .setResp → p = []) := by
  obtain ⟨-, fn', hfn, hknown, hempty⟩ := h
  cases (hfn : some fn = some fn')
  refine ⟨hknown, fun hclass => ?_⟩
  have hlen := hempty hclass
  rw [frame_length] at hlen
  exact List.eq_nil_of_length_eq_zero (Nat.add_right_cancel hlen)

end Sys2Proof.Machine

/-- Settles O48: what is sealed verifies, and a changed bit shows in the checksum (`not_trailerVerifies`). -/
theorem roundTripAndSingleBitSensitivity : Obligations.RoundTripAndSingleBitSensitivity := by
  intro bs s u hv hcfg hfit
  have hvu : u.cfg.Valid := hcfg ▸ hv
  have hcap : 8 ≤ s.cfg.cap := hv.left
  obtain ⟨t, r, ht, -, hseals, -⟩ := appendCrcSealsBytes bs s hv
  obtain ⟨-, hholds⟩ := hseals hfit
  have hlen : (sealed bs).length ≤ u.cfg.cap := by
    rw [sealed_length, hcfg]
    omega
  refine ⟨t, sealed bs, ht, hholds, ?_, fun g' hdiff => ?_⟩
  · obtain ⟨v, r, hrun, hrsp, hgood, -⟩ := verifyGivesVerdict (sealed bs) u hvu
    rw [hgood hlen (trailerVerifies_sealed bs)] at hrsp
    exact ⟨v, hrun, hrsp⟩
  · obtain ⟨v, r, hrun, hrsp, -, hbad, -⟩ := verifyGivesVerdict g' u hvu
    rw [hbad (hdiff.length_eq ▸ hlen) (hdiff.not_trailerVerifies (trailerVerifies_sealed bs))] at hrsp
    exact ⟨v, hrun, hrsp⟩

/-- Settles O49: the frame that was encoded is well formed, so it is decoded, to what it was built from. -/
theorem encodeThenDecodeIsIdentity : Obligations.EncodeThenDecodeIsIdentity := by
  intro sid slot fn p s u hv hcfg hfit
  obtain ⟨t, ht, -, hholds, hwf, -⟩ := encodeBuildsFrame sid slot fn p s hv hfit
  obtain ⟨v, d, hrun, hrsp, hreceived, hparses⟩ := decode_wellFormed (s := u) (hcfg ▸ hv) (hcfg ▸ hwf)
  obtain ⟨hsid, hslot, hfn, hlen⟩ := parsesHeader_frame sid slot fn p hparses
  refine ⟨t, frame sid slot fn p, v, d, ht, hholds, hrun, hrsp, hsid, hslot, hfn, hlen, fun j hj => ?_⟩
  obtain ⟨-, hbytes⟩ := holds_iff.mp hreceived
  rw [← frame_payload sid slot fn p hj]
  exact (hbytes (6 + j) (by rw [frame_length]; omega)).right

/-- Settles O50: the result `OK` of `DECODE` has the conditions of R66, and one changed bit breaks the last of them. -/
theorem decodeAcceptsExactlyWellFormedFrames : Obligations.DecodeAcceptsExactlyWellFormedFrames := by
  refine ⟨fun f s hv hfit => ?_, fun cap f g hwf hdiff hwf' => ?_⟩
  · obtain ⟨t, r, ht, hrsp, -, -, hfits⟩ := decodeJudgesFrame f s hv
    obtain ⟨-, hshort, hbad, hgood⟩ := hfits hfit
    have hok : t.respondedOk = (r.status == .ok) := respondedOk_of_rsp hrsp
    refine ⟨t, ht, ?_⟩
    rw [hok]
    rcases Nat.lt_or_ge f.length 8 with h | h8
    · rw [hshort h]
      exact iff_of_false Bool.false_ne_true fun hwf => absurd h (Nat.not_lt.mpr hwf.left)
    by_cases htrailer : trailerVerifies f
    · rw [(hgood h8 htrailer).left]
      exact iff_of_true rfl ⟨h8, hfit, htrailer⟩
    · rw [hbad h8 htrailer]
      exact iff_of_false Bool.false_ne_true fun ⟨_, _, hyes⟩ => htrailer hyes
  · obtain ⟨-, -, htrailer⟩ := hwf
    obtain ⟨-, -, htrailer'⟩ := hwf'
    exact hdiff.not_trailerVerifies htrailer htrailer'

/-- Settles O51: neither encoding nor decoding asks more than well-formedness. -/
theorem functionAndPayloadAreNotChecked : Obligations.FunctionAndPayloadAreNotChecked := by
  intro sid slot fn p s hv hfit hnot
  refine ⟨fun hpf => ?_, ?_, ?_⟩
  · obtain ⟨hknown, hempty⟩ := protocolFrame_frame hpf
    rcases hnot with hunknown | ⟨hp, hclass⟩
    · exact hknown hunknown
    · exact hp (hempty hclass)
  · obtain ⟨t, ht, hrsp, -⟩ := encodeBuildsFrame sid slot fn p s hv hfit
    exact ⟨t, ht, respondedOk_of_rsp hrsp⟩
  · obtain ⟨t, d, ht, hrsp, -⟩ := decode_wellFormed hv (frame_wellFormed sid slot fn p hfit)
    exact ⟨t, ht, respondedOk_of_rsp hrsp⟩

end
